-- ==== Sys2Proof/Word.lean ====
section
/-! DEFINITION. The word types of the block: a byte entry (R6), a value on the 40-bit register port (R21) and a
32-bit pixel word as the host sees it (R64). -/

namespace Sys2Proof

/-- A byte: a channel value, a memory entry of IBUF or OBUF, a command word (R6, R61, R90). -/
abbrev Byte := BitVec 8

/-- A value on the register port, which "moves 40-bit values" (R21). -/
abbrev PortWord := BitVec 40

/-- A pixel as the host sees it: one 32-bit word (R64). -/
abbrev PixelWord := BitVec 32

end Sys2Proof
end

