-- ==== Sys2Proof/Syntax.lean ====
section
/-! DEFINITION. The twelve commands of the block, one constructor per row of spec/opcode_table.json (R92).
No command has an operand in the command word (R93). -/

namespace Sys2Proof

/-- A command: "one opcode written to CMD; the unit of execution" (R15, R92). -/
inductive Instr where
  /-- 0x00 NOP, R195. -/
  | nop
  /-- 0x01 TOBITS, R112. -/
  | tobits
  /-- 0x02 FROMBITS, R113. -/
  | frombits
  /-- 0x03 GROUP, R124. -/
  | group
  /-- 0x04 UNGROUP, R125. -/
  | ungroup
  /-- 0x05 EMBED, R143. -/
  | embed
  /-- 0x06 EXTRACT, R145. -/
  | extract
  /-- 0x07 WRESET, R154. -/
  | wreset
  /-- 0x08 WNEXT, R155. -/
  | wnext
  /-- 0x09 ENCODE, R165. -/
  | encode
  /-- 0x0A DECODE, R180. -/
  | decode
  /-- 0x0B CLRERR, R196. -/
  | clrerr
  deriving DecidableEq, Repr

end Sys2Proof
end

