-- ==== Sys2Proof/WellFormed.lean ====
section
/-! DEFINITION. What a well-formed command and a well-formed command word are. A command has no operand (R93), so
there is nothing about an Instr to check; the check that exists is on the command word: its opcode selects one of the
twelve commands (R94, R95). -/

namespace Sys2Proof

/-- Every command is well formed: no command has a register specifier, an immediate or any other field (R93). -/
def Instr.wellFormed : Instr → Bool
  | .nop | .tobits | .frombits | .group | .ungroup | .embed | .extract => true
  | .wreset | .wnext | .encode | .decode | .clrerr => true

/-- A command word is well formed when its opcode is 0x00 to 0x0B; "Opcodes 0x0C to 0xFF select no command" (R94). -/
def wellFormedWord (op : Byte) : Bool := op.toNat ≤ 0x0B

end Sys2Proof
end

