-- ==== Sys2Proof/Decode.lean ====
section
/-! DEFINITION. The decoder and the encoder of command words (R90 to R96). A command is the low 8 bits of the value
written to CMD; the decoder is total and names what it rejects. -/

namespace Sys2Proof

/-- What an opcode selects (R95): one of the twelve commands, or Illegal, with the opcode that selects none. -/
inductive Decoded where
  | command (i : Instr)
  | illegal (op : Byte)
  deriving DecidableEq, Repr

/-- One row of the opcode map: `match` and `mask` over the 8-bit command word (R92). -/
structure OpRow where
  pattern : Byte
  mask    : Byte
  command : Instr
  deriving DecidableEq, Repr

/-- The opcode map (R92, spec/opcode_table.json): each row has `match` = the opcode and `mask` = 0xFF. -/
def opcodeMap : List OpRow := [
  ⟨0x00, 0xFF, .nop⟩,
  ⟨0x01, 0xFF, .tobits⟩,
  ⟨0x02, 0xFF, .frombits⟩,
  ⟨0x03, 0xFF, .group⟩,
  ⟨0x04, 0xFF, .ungroup⟩,
  ⟨0x05, 0xFF, .embed⟩,
  ⟨0x06, 0xFF, .extract⟩,
  ⟨0x07, 0xFF, .wreset⟩,
  ⟨0x08, 0xFF, .wnext⟩,
  ⟨0x09, 0xFF, .encode⟩,
  ⟨0x0A, 0xFF, .decode⟩,
  ⟨0x0B, 0xFF, .clrerr⟩]

/-- Does the opcode match the row under its mask? -/
def OpRow.accepts (row : OpRow) (op : Byte) : Bool := op &&& row.mask == row.pattern

/-- The decoder, "the total function" of R95. -/
def decodeOp (op : Byte) : Decoded :=
  match opcodeMap.find? (fun row => row.accepts op) with
  | some row => .command row.command
  | none => .illegal op

/-- The opcode of a value written to CMD: `op = v[7:0]`, "bits 39 to 8 ... are ignored" (R90). -/
def opOfPort (v : PortWord) : Byte := v.setWidth 8

/-- The encoder: the opcode R92 gives each command. -/
def encode : Instr → Byte
  | .nop      => 0x00
  | .tobits   => 0x01
  | .frombits => 0x02
  | .group    => 0x03
  | .ungroup  => 0x04
  | .embed    => 0x05
  | .extract  => 0x06
  | .wreset   => 0x07
  | .wnext    => 0x08
  | .encode   => 0x09
  | .decode   => 0x0A
  | .clrerr   => 0x0B

/-- The port value whose bits below `nbits` are those of `w` and whose other bits are 0. -/
def portOfWord (nbits w : Nat) : PortWord := BitVec.ofNat 40 (w % 2 ^ nbits)

/-- What the decoder reads from a command word numbered as spec/opcode_table.json numbers it: a command word is one
byte (R96), laid on the register port as its low 8 bits. -/
def decodeTableWord (nbits w : Nat) : Option Instr :=
  match decodeOp (opOfPort (portOfWord nbits w)) with
  | .command i => some i
  | .illegal _ => none

end Sys2Proof
end

