-- ==== Sys2Proof/Config.lean ====
section
/-! DEFINITION. What an implementation of the block fixes (the three OPEN depths, R7, U9) and the free values: the
values spec/93_implementation_defined.md leaves unspecified. A free value has no body, so no proof can see it. -/

namespace Sys2Proof

/-- The three depths of R7, each with the range R7 gives it. "Claims hold for all values" (U9): a machine's depths stand
in its state's `params`, which no step changes. -/
structure Params where
  /-- IBUF_DEPTH, 0 to 2^40 − 1: the number of byte entries of the input buffer. -/
  ibufDepth : Fin (2 ^ 40)
  /-- OBUF_DEPTH, 0 to 2^40 − 1: the number of byte entries of the output buffer. -/
  obufDepth : Fin (2 ^ 40)
  /-- GRID_DEPTH, 0 to 2^32: the number of pixel entries of the grid memory. -/
  gridDepth : Fin (2 ^ 32 + 1)
  deriving DecidableEq, Repr

/-- The depths of the machine `State.reset` names: each at its maximum, which R7 says a model takes that "wants the
document's unbounded in-memory arrays". DESIGN CHOICE (log entry 5): R7 leaves the depths OPEN. -/
def Config.params : Params := ⟨2 ^ 40 - 1, 2 ^ 40 - 1, 2 ^ 32⟩

/-- What entry `k` of IBUF reads as while nobody has written it since reset: any value, fixed per entry (U5). -/
opaque Config.unwrittenIbuf (k : Nat) : Byte

/-- What entry `k` of OBUF reads as while nobody has written it since reset: any value, fixed per entry (U5). -/
opaque Config.unwrittenObuf (k : Nat) : Byte

/-- What entry `p` of GRID reads as, as a pixel word, while nobody has written it since reset: any value (U5). -/
opaque Config.unwrittenPixel (p : Nat) : PixelWord

/-- The `d`-th unspecified value a read gives the host: a register read while a command runs (U4), a memory read at or
above the depth (U6). Any value, a fresh one for each draw. -/
opaque Config.freeRead (d : Nat) : PortWord

/-- A reset that is draw `d` abandons a command (U7): had the command already written field `f` of entry `k`? Any
choice, for each entry, and for each field of a pixel (0 red, 1 green, 2 blue, 3 alpha); a byte entry has field 0. -/
opaque Config.abandonWrote (d k f : Nat) : Bool

end Sys2Proof
end

