-- ==== Sys2Proof/Machine/State.lean ====
section
/-! DEFINITION. The state of the block (R20) and what stands beside it in the model: the host's moves still to come
(R97), the running command's opcode, the value the host last read, the count of free values drawn, and the depths (R7).
All of it is plain data. -/

namespace Sys2Proof.Machine

/-- One GRID entry: "four fields of 8 bits, red r, green g, blue b, alpha a" (R64). -/
structure Pixel where
  r : Byte
  g : Byte
  b : Byte
  a : Byte
  deriving DecidableEq, Repr

/-- The channels of a pixel that carry payload, numbered 0 red, 1 green, 2 blue (R66). -/
inductive Channel where
  | red
  | green
  | blue
  deriving DecidableEq, Repr

/-- A memory: the entries somebody has written, as (entry number, value) pairs, entry numbers strictly rising. A
`Memory Byte` is a list of `Host.Cell`. An entry not listed has never been written since reset (R85). -/
abbrev Memory (α : Type) := List (Nat × α)

/-- The registers of R21, by name. -/
inductive Reg where
  | cmd | status | errcode | nbits | width | height | srcLen | dstLen
  | dIn | dOut | widx | wx | wy | wc
  deriving DecidableEq, Repr

/-- The three errors of R206. -/
inductive ErrorKind where
  /-- Code 1: NBITS is not 1, 2, 4 or 8 when a command that uses N starts. -/
  | configurationError
  /-- Code 2: the input, result or grid does not fit its memory, or the cursor is exhausted. -/
  | rangeError
  /-- Code 3: the opcode selects no command. -/
  | illegalCommand
  deriving DecidableEq, Repr

/-- What the host does at the block's ports, one move of a host script (R22, R84, R97), and the reset input (R235). -/
inductive HostMove where
  /-- Script line `cmd`: RegWrite(0x00, v), then `wait` (R97); the command is one transition to the host (R91). -/
  | cmd (v : PortWord)
  /-- RegWrite(n, v) (R22). With n = 0x00 an accepted command goes on running until a later `wait`. -/
  | regWrite (n : Nat) (v : PortWord)
  /-- RegRead(n) (R22). -/
  | regRead (n : Nat)
  /-- Script line `wait`: STATUS is read until BUSY reads 0 (R97); the running command ends here. -/
  | wait
  /-- IbufWrite(a, b) (R84). -/
  | ibufWrite (a : Nat) (b : Byte)
  /-- IbufRead(a) (R84). -/
  | ibufRead (a : Nat)
  /-- ObufRead(a) (R84). -/
  | obufRead (a : Nat)
  /-- GridWrite(a, w) (R84). -/
  | gridWrite (a : Nat) (w : PixelWord)
  /-- GridRead(a) (R84). -/
  | gridRead (a : Nat)
  /-- The reset input (R235, R236). -/
  | reset
  deriving DecidableEq, Repr

/-- The state: R20's tuple (`nbits` to `grid`), then the model's own fields. -/
structure State where
  /-- NBITS: N, bits per channel slot (R24). -/
  nbits : Byte
  /-- WIDTH: pixels in a row (R25). -/
  width : BitVec 16
  /-- HEIGHT: rows (R25). -/
  height : BitVec 16
  /-- SRC_LEN: the number of valid entries of IBUF (R26). -/
  srcLen : BitVec 40
  /-- DST_LEN: the number of entries the last producing command wrote to OBUF (R27). -/
  dstLen : BitVec 40
  /-- D_IN: the data value operand of EMBED (R28). -/
  dIn : Byte
  /-- D_OUT: the data value result of EXTRACT (R29). -/
  dOut : Byte
  /-- WIDX: the walker index (R30). -/
  widx : BitVec 40
  /-- STATUS.BUSY: a command is executing (R23). -/
  busy : Bool
  /-- STATUS.DONE: the last accepted command completed without error (R23). -/
  done : Bool
  /-- STATUS.ERR: an error is recorded (R23). -/
  err : Bool
  /-- ERRCODE: the code of the recorded error (R32). -/
  errcode : BitVec 2
  /-- IBUF, the input buffer (R61). -/
  ibuf : Memory Byte
  /-- OBUF, the output buffer (R63). -/
  obuf : Memory Byte
  /-- GRID, the grid memory (R64). -/
  grid : Memory Pixel
  /-- The depths of the three memories (R7); no step changes them. -/
  params : Params
  /-- The host's moves still to come, next one first (R97). -/
  moves : List HostMove
  /-- The opcode of the running command; read only while `busy`, and 0 when no command runs. -/
  runningOp : Byte
  /-- The value the host's last read move returned, zero-extended to the port's 40 bits. -/
  lastRead : PortWord
  /-- How many free values (U4, U6, U7) have been drawn. -/
  freeDraw : Nat
  deriving DecidableEq, Repr

/-- Why a step could stop with a fault: never. Every error of the block is taken as a next state (R213), an access of a
command never leaves its memory (R76), and an unwritten entry reads as a free value (U5). Nobody raises a Fault. -/
inductive Fault where
  deriving DecidableEq, Repr

/-- Why a step refuses. -/
inductive Refusal where
  /-- An instruction that has no meaning yet; `exec`'s arms alone raise it. Safe: no claim can be proved through it. -/
  | notModelled (mnemonic : String)
  /-- A host access to IBUF, OBUF or GRID while a command runs (R245): the spec leaves what it returns or does, and what
  the command then computes, unspecified, and says to refuse it (U3). `takeMove` raises it. Safe. -/
  | hostMemoryWhileBusy
  deriving DecidableEq, Repr

/-- The machine with the given depths right after reset (R39): NBITS is 4, every other register and flag 0, and no entry
of a memory has been written. -/
def State.resetWith (p : Params) : State where
  nbits := 4
  width := 0
  height := 0
  srcLen := 0
  dstLen := 0
  dIn := 0
  dOut := 0
  widx := 0
  busy := false
  done := false
  err := false
  errcode := 0
  ibuf := []
  obuf := []
  grid := []
  params := p
  moves := []
  runningOp := 0
  lastRead := 0
  freeDraw := 0

/-- The machine right after reset, with the depths of `Config.params` (log entry 5). -/
def State.reset : State := State.resetWith Config.params

end Sys2Proof.Machine
end

