-- ==== Sys2Proof/Machine/Flags.lean ====
section
/-! DEFINITION. The status flags (R23, R43): what acceptance and completion of a command do to them, the view WVALID and
the STATUS word. BUSY, DONE, ERR and WVALID "are all the flags the block has". -/

namespace Sys2Proof.Machine

/-- The number of pixels of the grid, HEIGHT × WIDTH (R25). -/
def pixelCount (s : State) : Nat := s.height.toNat * s.width.toNat

/-- The number of channels of the grid, 3 × HEIGHT × WIDTH, the length of the traversal (R25, R151). -/
def channelCount (s : State) : Nat := 3 * pixelCount s

/-- The view WVALID: the cursor designates a channel (R31). -/
def wvalid (s : State) : Bool := s.widx.toNat < channelCount s

/-- The STATUS word: bit 0 BUSY, bit 1 DONE, bit 2 ERR, bit 3 WVALID (R23). -/
def statusWord (s : State) : BitVec 4 :=
  BitVec.ofBool (wvalid s) ++ BitVec.ofBool s.err ++ BitVec.ofBool s.done ++ BitVec.ofBool s.busy

/-- Acceptance of a command: DONE <- 0, BUSY <- 1 (R91). -/
def accept (s : State) : State := { s with done := false, busy := true }

/-- Completion without error: DONE <- 1, BUSY <- 0 (R91). -/
def complete (s : State) : State := { s with done := true, busy := false }

end Sys2Proof.Machine
end

