-- ==== Sys2Proof/Machine/Ops.lean ====
section
/-! DEFINITION. The named operations over memories and registers; taking an error (R213) and returning from it (R218);
the command gate (R91); reset (R235). -/

namespace Sys2Proof.Machine

/-- What running a command answers. -/
abbrev Answer := Host.Outcome State Fault Refusal

/-! ### Memories -/

/-- The value somebody has written to entry `k`, if anybody has. -/
def Memory.get? {α : Type} : Memory α → Nat → Option α
  | [], _ => none
  | (a, v) :: m, k => if a = k then some v else Memory.get? m k

/-- Write `v` to entry `k`, keeping the entries in rising order. -/
def Memory.set {α : Type} : Memory α → Nat → α → Memory α
  | [], k, v => [(k, v)]
  | (a, w) :: m, k, v =>
    if k < a then (k, v) :: (a, w) :: m
    else if k = a then (k, v) :: m
    else (a, w) :: Memory.set m k v

/-- Write the elements of a sequence to ascending entries, the first to entry `k` (R68). -/
def Memory.setSeq {α : Type} : Memory α → Nat → List α → Memory α
  | m, _, [] => m
  | m, k, v :: vs => Memory.setSeq (Memory.set m k v) (k + 1) vs

/-- The canonical form of a memory of the given depth: entry numbers strictly rising, all below the depth (R60, R76). -/
abbrev Memory.wf {α : Type} (depth : Nat) (m : Memory α) : Prop :=
  m.Pairwise (fun x y => x.1 < y.1) ∧ ∀ x ∈ m, x.1 < depth

/-- The pixel of a pixel word: `word[31:24] = r`, `[23:16] = g`, `[15:8] = b`, `[7:0] = a` (R64). -/
def pixelOfWord (w : PixelWord) : Pixel :=
  ⟨w.extractLsb' 24 8, w.extractLsb' 16 8, w.extractLsb' 8 8, w.extractLsb' 0 8⟩

/-- The pixel word of a pixel, `r << 24 | g << 16 | b << 8 | a` (R64, R84). -/
def wordOfPixel (q : Pixel) : PixelWord := q.r ++ q.g ++ q.b ++ q.a

/-- MemRead(IBUF, k, 1) (R12, R62); an entry nobody has written reads as its free value (U5). -/
def readIbuf (s : State) (k : Nat) : Byte := (Memory.get? s.ibuf k).getD (Config.unwrittenIbuf k)

/-- What entry `k` of OBUF reads as to the host (R84); an entry nobody has written reads as its free value (U5). -/
def readObuf (s : State) (k : Nat) : Byte := (Memory.get? s.obuf k).getD (Config.unwrittenObuf k)

/-- MemRead(GRID, p, 4) of a grid memory (R12, R64); an entry nobody has written reads as its free value (U5). -/
def gridPixel (m : Memory Pixel) (p : Nat) : Pixel :=
  (Memory.get? m p).getD (pixelOfWord (Config.unwrittenPixel p))

/-- MemRead(GRID, p, 4) (R12, R64). -/
def readGrid (s : State) (p : Nat) : Pixel := gridPixel s.grid p

/-- Deliver a producing command's result: element k to OBUF entry k, and DST_LEN <- its length (R63). -/
def produce (out : List Byte) (s : State) : State :=
  { s with obuf := Memory.setSeq s.obuf 0 out, dstLen := BitVec.ofNat 40 out.length }

/-- Put the cursor at channel `i` of the traversal: WIDX <- i (R30). -/
def setCursor (i : Nat) (s : State) : State := { s with widx := BitVec.ofNat 40 i }

/-! ### Errors -/

/-- The code ERRCODE shows for an error (R206). -/
def errorCode : ErrorKind → BitVec 2
  | .configurationError => 1
  | .rangeError => 2
  | .illegalCommand => 3

/-- Error entry (R213): ERR <- 1, ERRCODE <- the code, DONE <- 0, BUSY <- 0; "nothing else: no register saved, no mode
changed, no vector taken, no memory written". -/
def raiseError (e : ErrorKind) (s : State) : State :=
  { s with err := true, errcode := errorCode e, done := false, busy := false }

/-- Return from the error state (R218): ERR <- 0, ERRCODE <- 0. -/
def clearError (s : State) : State := { s with err := false, errcode := 0 }

/-- The command gate (R91): a write to CMD is ignored while BUSY = 1, and while ERR = 1 unless the command is the one
that clears it; an accepted command's `rule` runs, and either its writes take effect and DONE <- 1, or the error it
raises is recorded and it has no other effect. -/
def gate (clearsErr : Bool) (rule : State → Except ErrorKind State) (s : State) : Answer :=
  if s.busy then .next s
  else if s.err && !clearsErr then .next s
  else
    match rule (accept s) with
    | .ok t => .next (complete t)
    | .error e => .next (raiseError e (accept s))

/-! ### Registers -/

/-- The register numbers of R21; every other number is unassigned. -/
def regOfNumber : Nat → Option Reg
  | 0x00 => some .cmd
  | 0x01 => some .status
  | 0x02 => some .errcode
  | 0x03 => some .nbits
  | 0x04 => some .width
  | 0x05 => some .height
  | 0x06 => some .srcLen
  | 0x07 => some .dstLen
  | 0x08 => some .dIn
  | 0x09 => some .dOut
  | 0x0A => some .widx
  | 0x0B => some .wx
  | 0x0C => some .wy
  | 0x0D => some .wc
  | _ => none

/-- The column of the cursor, the view WX (R31). -/
def cursorColumn (s : State) : Nat := if s.width = 0 then 0 else (s.widx.toNat / 3) % s.width.toNat

/-- The row of the cursor, the view WY (R31). -/
def cursorRow (s : State) : Nat := if s.width = 0 then 0 else (s.widx.toNat / 3) / s.width.toNat

/-- What a register reads as with the block idle, zero-extended to the port's 40 bits (R22); CMD reads as 0 (R21). -/
def readReg (s : State) : Reg → PortWord
  | .cmd => 0
  | .status => (statusWord s).setWidth 40
  | .errcode => s.errcode.setWidth 40
  | .nbits => s.nbits.setWidth 40
  | .width => s.width.setWidth 40
  | .height => s.height.setWidth 40
  | .srcLen => s.srcLen
  | .dstLen => s.dstLen
  | .dIn => s.dIn.setWidth 40
  | .dOut => s.dOut.setWidth 40
  | .widx => s.widx
  | .wx => (BitVec.ofNat 16 (cursorColumn s)).setWidth 40
  | .wy => (BitVec.ofNat 16 (cursorRow s)).setWidth 40
  | .wc => (BitVec.ofNat 2 (s.widx.toNat % 3)).setWidth 40

/-- What a host write stores with the block idle (R22): the register takes `v[w-1:0]`; WIDTH and HEIGHT also reset the
cursor (R35); read-only registers and views ignore the write. A write to CMD stores nothing (R34). -/
def writeReg (s : State) (v : PortWord) : Reg → State
  | .nbits => { s with nbits := v.setWidth 8 }
  | .width => { s with width := v.setWidth 16, widx := 0 }
  | .height => { s with height := v.setWidth 16, widx := 0 }
  | .srcLen => { s with srcLen := v }
  | .dIn => { s with dIn := v.setWidth 8 }
  | .cmd | .status | .errcode | .dstLen | .dOut | .widx | .wx | .wy | .wc => s

/-! ### Reset -/

/-- The reset input on an idle block (R235): every register and flag takes its reset value; "The memories are not
written". -/
def resetRegisters (s : State) : State :=
  { s with
    nbits := 4, width := 0, height := 0, srcLen := 0, dstLen := 0, dIn := 0, dOut := 0, widx := 0,
    busy := false, done := false, err := false, errcode := 0, runningOp := 0 }

/-- OBUF after a command that would have made `new` of `old` was abandoned (U7): each entry is its old value, or, where
`took` says so, the value the command would have written. -/
def mixBytes (took : Nat → Bool) (old new : Memory Byte) : Memory Byte :=
  new.filterMap fun x => if took x.1 then some x else (Memory.get? old x.1).map fun v => (x.1, v)

/-- A pixel whose fields are each the old or the new one, as `took` says of fields 0 red, 1 green, 2 blue, 3 alpha. -/
def mixPixel (took : Nat → Bool) (old new : Pixel) : Pixel :=
  ⟨if took 0 then new.r else old.r, if took 1 then new.g else old.g,
    if took 2 then new.b else old.b, if took 3 then new.a else old.a⟩

/-- GRID after an abandoned command (U7): "any mix of the two per field". A pixel none of whose fields was written stays
as it was. -/
def mixPixels (took : Nat → Nat → Bool) (old new : Memory Pixel) : Memory Pixel :=
  new.filterMap fun x =>
    if took x.1 0 || took x.1 1 || took x.1 2 || took x.1 3 then
      some (x.1, mixPixel (took x.1) (gridPixel old x.1) x.2)
    else (Memory.get? old x.1).map fun q => (x.1, q)

end Sys2Proof.Machine
end

