-- ==== Sys2Proof/Machine/Control.lean ====
section
/-! DEFINITION. The control commands NOP and CLRERR (spec/46_control.md), and what an illegal opcode does (R94). -/

namespace Sys2Proof.Machine

/-- NOP (R195): nothing but the gate's DONE <- 1. -/
def execNop (s : State) : Answer := gate false (fun t => .ok t) s

/-- CLRERR (R196): ERR <- 0, ERRCODE <- 0; "the only command accepted while ERR = 1". -/
def execClrerr (s : State) : Answer := gate true (fun t => .ok (clearError t)) s

/-- A write of an illegal opcode to CMD (R94): when the gate accepts it, IllegalCommand is raised. -/
def illegalCommand (s : State) : Answer := gate false (fun _ => .error .illegalCommand) s

end Sys2Proof.Machine
end

