-- ==== Sys2Proof/Machine/Operands.lean ====
section
/-! DEFINITION. The operand forms of the commands: N and its check (R210), the sequential input, cursor and traversal
forms (R86), the element kinds (R69), and the masks and lengths every rule uses (R8, R10). -/

namespace Sys2Proof.Machine

/-- N, the value of NBITS (R24). -/
def nOf (s : State) : Nat := s.nbits.toNat

/-- The N check: "raise ConfigurationError unless it is 1, 2, 4 or 8" (R210). -/
def validN (n : Nat) : Bool := n == 1 || n == 2 || n == 4 || n == 8

/-- `ceil_div(a, b) = (a + b − 1) div b` (R8). -/
def ceilDiv (a b : Nat) : Nat := (a + b - 1) / b

/-- `LO(N) = 2^N − 1`, the low segment mask (R10). -/
def loMask (n : Nat) : Byte := BitVec.ofNat 8 (2 ^ n - 1)

/-- `HI(N) = 255 − LO(N)`, the high segment mask (R10); not the document's literal, which C1 rejects (R137). -/
def hiMask (n : Nat) : Byte := 255 - loMask n

/-- A bit as it is stored in an entry: `zext_8(bit)`, 0x00 or 0x01 (R69). -/
def bitByte (b : Bool) : Byte := (BitVec.ofBool b).setWidth 8

/-- The bit a bit entry holds: "only bit 0 of the entry is used" (R69). -/
def entryBit (e : Byte) : Bool := e.getLsbD 0

/-- The value of `n` bits, most significant first: bit `j` of the sequence goes to bit `n − 1 − j` (R67, R120). -/
def packBits (n : Nat) (bit : Nat → Bool) : Byte :=
  (List.range n).foldl (fun v j => v ||| (bitByte (bit j) <<< (n - 1 - j))) 0

/-- Sequential input (R86): the entries 0 to n − 1 of IBUF in ascending order. -/
def inputSeq (s : State) (n : Nat) : List Byte := (List.range n).map (readIbuf s)

/-- The input sequence as bits, one per entry (R69). -/
def inputBits (s : State) (n : Nat) : List Bool := (inputSeq s n).map entryBit

/-- The GRID entry of channel `i` of the traversal, `p = i div 3` (R86, R150). -/
def pixelOf (i : Nat) : Nat := i / 3

/-- The channel of channel index `i`, `c = i mod 3`: 0 red, 1 green, 2 blue (R66, R150). -/
def channelOf (i : Nat) : Channel :=
  match i % 3 with
  | 0 => .red
  | 1 => .green
  | _ => .blue

/-- `chan(px, c)` (R66). -/
def chan (q : Pixel) : Channel → Byte
  | .red => q.r
  | .green => q.g
  | .blue => q.b

/-- The cursor form's range check (R211): the cursor is not exhausted, and its pixel lies below GRID_DEPTH. -/
def cursorFits (s : State) : Bool := wvalid s && decide (pixelOf s.widx.toNat < s.params.gridDepth.val)

/-- The traversal form's range check (R211): H × W ≤ GRID_DEPTH. -/
def gridFits (s : State) : Bool := pixelCount s ≤ s.params.gridDepth.val

/-- The sequential input form's range check (R211): SRC_LEN ≤ IBUF_DEPTH. -/
def inputFits (s : State) : Bool := s.srcLen.toNat ≤ s.params.ibufDepth.val

/-- The sequential output form's range check (R211): a result of `n` entries fits OBUF. -/
def outputFits (s : State) (n : Nat) : Bool := n ≤ s.params.obufDepth.val

end Sys2Proof.Machine
end

