-- ==== Sys2Proof/Machine/BitPacker.lean ====
section
/-! DEFINITION. BitPacker, the variable-width group packer: `group`, `ungroup`, and the commands GROUP and UNGROUP
(spec/41_bitpacker.md). -/

namespace Sys2Proof.Machine

/-- `group(bits, N)`: chunks of N bits in order, MSB first, a short final chunk zero-padded on the right (R120). -/
def group (bits : List Bool) (n : Nat) : List Byte :=
  (List.range (ceilDiv bits.length n)).map fun i => packBits n fun j => bits.getD (n * i + j) false

/-- `ungroup(vals, N)`: each value, "masked to N bits", back into N bits, MSB first, concatenated in order (R121). -/
def ungroup (vals : List Byte) (n : Nat) : List Bool :=
  vals.flatMap fun v => (List.range n).map fun j => (v &&& loMask n).getLsbD (n - 1 - j)

/-- The rule of GROUP (R124). -/
def groupRule (s : State) : Except ErrorKind State :=
  let n := nOf s
  let m := s.srcLen.toNat
  if !validN n then .error .configurationError
  else if inputFits s && outputFits s (ceilDiv m n) then
    .ok (produce (group (inputBits s m) n) s)
  else .error .rangeError

/-- GROUP (R124) through the command gate. -/
def execGroup (s : State) : Answer := gate false groupRule s

/-- The rule of UNGROUP (R125). -/
def ungroupRule (s : State) : Except ErrorKind State :=
  let n := nOf s
  let g := s.srcLen.toNat
  if !validN n then .error .configurationError
  else if inputFits s && outputFits s (n * g) then
    .ok (produce ((ungroup (inputSeq s g) n).map bitByte) s)
  else .error .rangeError

/-- UNGROUP (R125) through the command gate. -/
def execUngroup (s : State) : Answer := gate false ungroupRule s

end Sys2Proof.Machine
end

