-- ==== Sys2Proof/Machine/BitStream.lean ====
section
/-! DEFINITION. BitStream, the bitstream serializer: `toBits`, `fromBits`, and the commands TOBITS and FROMBITS
(spec/40_bitstream.md). -/

namespace Sys2Proof.Machine

/-- `toBits(B)`: "for each byte, emits 8 bits, most significant first" (R110). -/
def toBits (bytes : List Byte) : List Bool :=
  bytes.flatMap fun b => (List.range 8).map fun j => b.getLsbD (7 - j)

/-- `fromBits(bits)`: each 8 bits make a byte, first bit at bit 7; a trailing partial byte is dropped (R111). -/
def fromBits (bits : List Bool) : List Byte :=
  (List.range (bits.length / 8)).map fun k => packBits 8 fun j => bits.getD (8 * k + j) false

/-- The rule of TOBITS (R112): SRC_LEN bytes of IBUF to 8 × SRC_LEN bits of OBUF. -/
def tobitsRule (s : State) : Except ErrorKind State :=
  let n := s.srcLen.toNat
  if inputFits s && outputFits s (8 * n) then
    .ok (produce ((toBits (inputSeq s n)).map bitByte) s)
  else .error .rangeError

/-- TOBITS (R112) through the command gate. -/
def execTobits (s : State) : Answer := gate false tobitsRule s

/-- The rule of FROMBITS (R113): SRC_LEN bits of IBUF to SRC_LEN div 8 bytes of OBUF. -/
def frombitsRule (s : State) : Except ErrorKind State :=
  let m := s.srcLen.toNat
  if inputFits s && outputFits s (m / 8) then
    .ok (produce (fromBits (inputBits s m)) s)
  else .error .rangeError

/-- FROMBITS (R113) through the command gate. -/
def execFrombits (s : State) : Answer := gate false frombitsRule s

end Sys2Proof.Machine
end

