-- ==== Sys2Proof/Machine/ChannelCodec.lean ====
section
/-! DEFINITION. ChannelCodec, the channel low-bit injector and extractor: `embed`, `extract`, `embedPixel`, and the
commands EMBED and EXTRACT (spec/42_channelcodec.md). -/

namespace Sys2Proof.Machine

/-- `embed(v, d, N) = (v & HI(N)) | d` (R136). -/
def embed (v d : Byte) (n : Nat) : Byte := (v &&& hiMask n) ||| d

/-- `extract(v, N) = v & LO(N)` (R139). -/
def extract (v : Byte) (n : Nat) : Byte := v &&& loMask n

/-- `embedPixel(px, c, d, N)`: the named channel takes the data value, the two others stay, alpha becomes 255 (R140). -/
def embedPixel (q : Pixel) (c : Channel) (d : Byte) (n : Nat) : Pixel :=
  match c with
  | .red => ⟨embed q.r d n, q.g, q.b, 255⟩
  | .green => ⟨q.r, embed q.g d n, q.b, 255⟩
  | .blue => ⟨q.r, q.g, embed q.b d n, 255⟩

/-- Embed into channel `i` of the traversal: the read-modify-write of one pixel entry (R73, R140). -/
def embedAt (m : Memory Pixel) (i : Nat) (d : Byte) (n : Nat) : Memory Pixel :=
  Memory.set m (pixelOf i) (embedPixel (gridPixel m (pixelOf i)) (channelOf i) d n)

/-- The rule of EMBED (R143); the data value is D_IN & LO(N) (R144). -/
def embedRule (s : State) : Except ErrorKind State :=
  let n := nOf s
  if !validN n then .error .configurationError
  else if cursorFits s then
    .ok { s with grid := embedAt s.grid s.widx.toNat (s.dIn &&& loMask n) n }
  else .error .rangeError

/-- EMBED (R143) through the command gate. -/
def execEmbed (s : State) : Answer := gate false embedRule s

/-- The rule of EXTRACT (R145). -/
def extractRule (s : State) : Except ErrorKind State :=
  let n := nOf s
  let i := s.widx.toNat
  if !validN n then .error .configurationError
  else if cursorFits s then
    .ok { s with dOut := extract (chan (readGrid s (pixelOf i)) (channelOf i)) n }
  else .error .rangeError

/-- EXTRACT (R145) through the command gate. -/
def execExtract (s : State) : Answer := gate false extractRule s

end Sys2Proof.Machine
end

