-- ==== Sys2Proof/Machine/Decoder.lean ====
section
/-! DEFINITION. Decoder: the command DECODE (spec/45_decoder.md). -/

namespace Sys2Proof.Machine

/-- The data values of the first `count` channels of the traversal, in order (R180). -/
def gridValues (m : Memory Pixel) (n count : Nat) : List Byte :=
  (List.range count).map fun i => extract (chan (gridPixel m (pixelOf i)) (channelOf i)) n

/-- The length of the decoded buffer, (3 × H × W × N) div 8 (R182). -/
def decodedLength (s : State) : Nat := channelCount s * nOf s / 8

/-- The rule of DECODE (R180): the whole grid into OBUF; DST_LEN <- the length, WIDX <- 3 × H × W. -/
def decodeRule (s : State) : Except ErrorKind State :=
  let n := nOf s
  if !validN n then .error .configurationError
  else if gridFits s && outputFits s (decodedLength s) then
    let dv := gridValues s.grid n (channelCount s)
    .ok (setCursor (channelCount s) (produce (fromBits (ungroup dv n)) s))
  else .error .rangeError

/-- DECODE (R180) through the command gate. -/
def execDecode (s : State) : Answer := gate false decodeRule s

end Sys2Proof.Machine
end

