-- ==== Sys2Proof/Machine/Encoder.lean ====
section
/-! DEFINITION. Encoder: the command ENCODE (spec/44_encoder.md). -/

namespace Sys2Proof.Machine

/-- The data values of a message, `dv = group(toBits(msg), N)` (R165). -/
def messageValues (msg : List Byte) (n : Nat) : List Byte := group (toBits msg) n

/-- The data value channel `i` gets: "embed dataValues[i] if i < dataValues.length, else embed 0" (R165, R168). -/
def selectValue (dv : List Byte) (i : Nat) : Byte := dv.getD i 0

/-- Walk the first `count` channels of the traversal in order, embedding each one's data value (R165). -/
def embedAll (m : Memory Pixel) (dv : List Byte) (n count : Nat) : Memory Pixel :=
  (List.range count).foldl (fun g i => embedAt g i (selectValue dv i) n) m

/-- The rule of ENCODE (R165): the message of IBUF into every channel of the grid; WIDX <- 3 × H × W. -/
def encodeRule (s : State) : Except ErrorKind State :=
  let n := nOf s
  if !validN n then .error .configurationError
  else if inputFits s && gridFits s then
    let dv := messageValues (inputSeq s s.srcLen.toNat) n
    .ok (setCursor (channelCount s) { s with grid := embedAll s.grid dv n (channelCount s) })
  else .error .rangeError

/-- ENCODE (R165) through the command gate. -/
def execEncode (s : State) : Answer := gate false encodeRule s

end Sys2Proof.Machine
end

