-- ==== Sys2Proof/Machine/GridWalker.lean ====
section
/-! DEFINITION. PixelGridWalker, the grid traversal sequencer: the commands WRESET and WNEXT (spec/43_gridwalker.md).
The traversal itself is the channel indices 0 to 3 × H × W − 1 in ascending order, each naming the pixel `pixelOf i` and
the channel `channelOf i` (R150). -/

namespace Sys2Proof.Machine

/-- The rule of WRESET (R154): begin a new traversal. -/
def wresetRule (s : State) : Except ErrorKind State := .ok (setCursor 0 s)

/-- WRESET (R154) through the command gate. -/
def execWreset (s : State) : Answer := gate false wresetRule s

/-- The rule of WNEXT (R155): step the cursor; "an exhausted cursor stays exhausted". -/
def wnextRule (s : State) : Except ErrorKind State :=
  if wvalid s then .ok (setCursor (s.widx.toNat + 1) s) else .ok s

/-- WNEXT (R155) through the command gate. -/
def execWnext (s : State) : Answer := gate false wnextRule s

end Sys2Proof.Machine
end

