-- ==== Sys2Proof/Machine/Dispatch.lean ====
section
/-! DEFINITION. exec: what issuing a command to the block does, one arm per command, each one call of its meaning. -/

namespace Sys2Proof.Machine

def exec (i : Instr) (s : State) : Host.Outcome State Fault Refusal :=
  match i with
  | .nop => Sys2Proof.Machine.execNop s
  | .tobits => Sys2Proof.Machine.execTobits s
  | .frombits => Sys2Proof.Machine.execFrombits s
  | .group => Sys2Proof.Machine.execGroup s
  | .ungroup => Sys2Proof.Machine.execUngroup s
  | .embed => Sys2Proof.Machine.execEmbed s
  | .extract => Sys2Proof.Machine.execExtract s
  | .wreset => Sys2Proof.Machine.execWreset s
  | .wnext => Sys2Proof.Machine.execWnext s
  | .encode => Sys2Proof.Machine.execEncode s
  | .decode => Sys2Proof.Machine.execDecode s
  | .clrerr => Sys2Proof.Machine.execClrerr s

end Sys2Proof.Machine
end

