-- ==== Sys2Proof/Machine/HostPort.lean ====
section
/-! DEFINITION. What each move of the host does (R22, R84, R91, R235, R236): the register port, the command port with its
BUSY window, the memory moves, the reset input, and fetching the next command. -/

namespace Sys2Proof.Machine

/-- A whole command, from the write of `v` to CMD to BUSY = 0, as one transition (R91): the command `v[7:0]` selects, or
the illegal command. -/
def issue (v : PortWord) (s : State) : Answer :=
  match decodeOp (opOfPort v) with
  | .command i => exec i s
  | .illegal _ => illegalCommand s

/-- The gate's answer to a write of opcode `op` to CMD (R91): is the command accepted? -/
def accepts (op : Byte) (s : State) : Bool := !s.busy && (!s.err || op == 0x0B)

/-- RegWrite(0x00, v) on its own (R91): an accepted command starts, DONE <- 0 and BUSY <- 1, and goes on running. -/
def openCommand (v : PortWord) (s : State) : State :=
  if accepts (opOfPort v) s then { accept s with runningOp := opOfPort v } else s

/-- The end of the running command, if one runs: its rule takes effect and BUSY <- 0 (R91, R250). Its operands cannot
have changed since it was accepted (R38, R82). -/
def endCommand (s : State) : Answer :=
  if s.busy then issue (s.runningOp.setWidth 40) { s with busy := false, runningOp := 0 } else .next s

/-- RegWrite(n, v) (R22): while BUSY = 1 ignored, whatever n is (R38); a write to CMD starts a command; a write to an
unassigned number is ignored. -/
def regWriteMove (n : Nat) (v : PortWord) (s : State) : State :=
  if s.busy then s
  else
    match regOfNumber n with
    | some .cmd => openCommand v s
    | some r => writeReg s v r
    | none => s

/-- The host gets `v` back from a read. "No read has a side effect" on the block (R74). -/
def reply (v : PortWord) (s : State) : State := { s with lastRead := v }

/-- The host gets an unspecified value back (U4, U6): `f` of the next free value. -/
def replyFree (f : PortWord → PortWord) (s : State) : State :=
  { s with lastRead := f (Config.freeRead s.freeDraw), freeDraw := s.freeDraw + 1 }

/-- RegRead(n) (R22): idle, the register's value, or 0 for an unassigned number; while BUSY = 1 STATUS reads bit 0 = 1 and
unspecified bits 1 to 3, and any other read gives an unspecified value (R38, U4). -/
def regReadMove (n : Nat) (s : State) : State :=
  if s.busy then
    if n = 0x01 then replyFree (fun v => (v &&& 0xE) ||| 1) s else replyFree id s
  else
    match regOfNumber n with
    | some r => reply (readReg s r) s
    | none => reply 0 s

/-- A memory move of the host: refused while a command runs (R245, U3). -/
def memoryMove (move : State → State) (s : State) : Answer :=
  if s.busy then .refused .hostMemoryWhileBusy else .next (move s)

/-- IbufWrite(a, b) (R84); at or above the depth it is ignored (R76). -/
def ibufWriteMove (a : Nat) (b : Byte) (s : State) : State :=
  if a < s.params.ibufDepth.val then { s with ibuf := Memory.set s.ibuf a b } else s

/-- GridWrite(a, w) (R84); at or above the depth it is ignored (R76). -/
def gridWriteMove (a : Nat) (w : PixelWord) (s : State) : State :=
  if a < s.params.gridDepth.val then { s with grid := Memory.set s.grid a (pixelOfWord w) } else s

/-- IbufRead(a) (R84); at or above the depth it returns an unspecified byte (R76, U6). -/
def ibufReadMove (a : Nat) (s : State) : State :=
  if a < s.params.ibufDepth.val then reply ((readIbuf s a).setWidth 40) s else replyFree (· &&& 0xFF) s

/-- ObufRead(a) (R84); at or above the depth it returns an unspecified byte (R76, U6). -/
def obufReadMove (a : Nat) (s : State) : State :=
  if a < s.params.obufDepth.val then reply ((readObuf s a).setWidth 40) s else replyFree (· &&& 0xFF) s

/-- GridRead(a) (R84); at or above the depth it returns an unspecified word (R76, U6). -/
def gridReadMove (a : Nat) (s : State) : State :=
  if a < s.params.gridDepth.val then reply ((wordOfPixel (readGrid s a)).setWidth 40) s
  else replyFree (· &&& 0xFFFFFFFF) s

/-- The memories after the running command was abandoned (R236, U7): every entry, and every field of a pixel, that the
command would have written holds its old value or the value the command would have written, by a free choice. -/
def abandonCommand (s : State) : State :=
  match endCommand s with
  | .next t =>
    { s with
      obuf := mixBytes (fun k => Config.abandonWrote s.freeDraw k 0) s.obuf t.obuf
      grid := mixPixels (Config.abandonWrote s.freeDraw) s.grid t.grid
      freeDraw := s.freeDraw + 1 }
  | _ => s

/-- The reset input (R235); applied while a command runs it abandons the command (R236). -/
def resetMove (s : State) : State :=
  if s.busy then resetRegisters (abandonCommand s) else resetRegisters s

/-- One move of the host. -/
def takeMove (m : HostMove) (s : State) : Answer :=
  match m with
  | .cmd v => if s.busy then endCommand s else issue v s
  | .regWrite n v => .next (regWriteMove n v s)
  | .regRead n => .next (regReadMove n s)
  | .wait => endCommand s
  | .ibufWrite a b => memoryMove (ibufWriteMove a b) s
  | .ibufRead a => memoryMove (ibufReadMove a) s
  | .obufRead a => memoryMove (obufReadMove a) s
  | .gridWrite a w => memoryMove (gridWriteMove a w) s
  | .gridRead a => memoryMove (gridReadMove a) s
  | .reset => .next (resetMove s)

/-- The next thing that happens: the host's next move; with no move left, the end of the running command (R250), or
nothing at all (R227). -/
def nextMove (s : State) : Answer :=
  match s.moves with
  | m :: rest => takeMove m { s with moves := rest }
  | [] => endCommand s

/-- `s` with the block idle and the command word `w` the host's next move: what the host does to run a command (R90,
R247). The command word is the low byte of the value written to CMD. -/
def placeCommand (s : State) (nbits w : Nat) : State :=
  { s with busy := false, runningOp := 0, moves := .cmd (portOfWord nbits w) :: s.moves }

end Sys2Proof.Machine
end

