-- ==== Sys2Proof/Machine/Step.lean ====
section
/-! DEFINITION. The step: one move of the host, or the end of the running command. -/

namespace Sys2Proof.Machine

/-- One step of the machine. -/
def step (s : State) : Host.Outcome State Fault Refusal := nextMove s

/-- `s` with the command word `w` where `step` takes its next command from (log entry 2). -/
def State.withFetchWord (s : State) (nbits w : Nat) : State := placeCommand s nbits w

end Sys2Proof.Machine
end

