-- ==== Sys2Proof/Safety.lean ====
section
/-! DEFINITION. What claims about the block are stated in: a ready block, the invariants of every run, the
checks a command makes before it runs (R210, R211, R214), and the entries it reads and writes (R75). -/

namespace Sys2Proof.Machine

/-- The block accepts every command: idle, and no error recorded (R91). -/
abbrev ready (s : State) : Prop := s.busy = false ∧ s.err = false

/-- Every memory is in canonical form and lists no entry at or above its depth (R60, R76). -/
abbrev memoriesOk (s : State) : Prop :=
  Memory.wf s.params.ibufDepth.val s.ibuf ∧ Memory.wf s.params.obufDepth.val s.obuf ∧
    Memory.wf s.params.gridDepth.val s.grid

/-- The cursor "never exceeds 3 × HEIGHT × WIDTH" (R30). -/
abbrev cursorOk (s : State) : Prop := s.widx.toNat ≤ channelCount s

/-- "DONE = 1 with ERR = 1 never occurs" (R23), and ERRCODE "is nonzero exactly when ERR = 1" (R32). -/
abbrev flagsOk (s : State) : Prop :=
  ¬(s.done = true ∧ s.err = true) ∧ (s.err = true ↔ s.errcode ≠ 0)

/-- A command runs only if the gate accepted it, and DONE is 0 while it runs (R91); no opcode is kept when none runs. -/
abbrev runningOk (s : State) : Prop :=
  (s.busy = true → s.done = false ∧ (s.err = true → s.runningOp = 0x0B)) ∧ (s.busy = false → s.runningOp = 0)

/-- The commands that use N, and so make the N check (R210). -/
def usesN (i : Instr) : Bool :=
  match i with
  | .group | .ungroup | .embed | .extract | .encode | .decode => true
  | .nop | .tobits | .frombits | .wreset | .wnext | .clrerr => false

/-- The table of R211: does one of the command's range conditions hold? -/
def rangeFails (i : Instr) (s : State) : Bool :=
  let n := s.nbits.toNat
  let len := s.srcLen.toNat
  let pixels := s.height.toNat * s.width.toNat
  match i with
  | .tobits => s.params.ibufDepth.val < len || s.params.obufDepth.val < 8 * len
  | .frombits => s.params.ibufDepth.val < len || s.params.obufDepth.val < len / 8
  | .group => s.params.ibufDepth.val < len || s.params.obufDepth.val < (len + n - 1) / n
  | .ungroup => s.params.ibufDepth.val < len || s.params.obufDepth.val < n * len
  | .embed | .extract => 3 * pixels ≤ s.widx.toNat || s.params.gridDepth.val ≤ s.widx.toNat / 3
  | .encode => s.params.ibufDepth.val < len || s.params.gridDepth.val < pixels
  | .decode => s.params.gridDepth.val < pixels || s.params.obufDepth.val < 3 * pixels * n / 8
  | .nop | .wreset | .wnext | .clrerr => false

/-- The code of the first check of a legal command that fails, in the order of R214; 0 if all pass. -/
def failingCheck (i : Instr) (s : State) : BitVec 2 :=
  if usesN i = true ∧ s.nbits.toNat ∉ [1, 2, 4, 8] then 1
  else if rangeFails i s = true then 2
  else 0

/-- The column "reads" of R75 for IBUF: the command reads entries 0 up to this number. -/
def ibufReads (i : Instr) (s : State) : Nat :=
  match i with
  | .tobits | .group | .ungroup | .encode => s.srcLen.toNat
  | .frombits => 8 * (s.srcLen.toNat / 8)
  | .nop | .embed | .extract | .wreset | .wnext | .decode | .clrerr => 0

/-- The column "reads" of R75 for GRID: does the command read entry `p`? -/
def gridReads (i : Instr) (s : State) (p : Nat) : Bool :=
  match i with
  | .embed | .extract => p == s.widx.toNat / 3
  | .encode | .decode => p < s.height.toNat * s.width.toNat
  | .nop | .tobits | .frombits | .group | .ungroup | .wreset | .wnext | .clrerr => false

/-- The column "writes" of R75 for OBUF: the command writes entries 0 up to this number. -/
def obufWrites (i : Instr) (s : State) : Nat :=
  match i with
  | .tobits => 8 * s.srcLen.toNat
  | .frombits => s.srcLen.toNat / 8
  | .group => (s.srcLen.toNat + s.nbits.toNat - 1) / s.nbits.toNat
  | .ungroup => s.nbits.toNat * s.srcLen.toNat
  | .decode => 3 * (s.height.toNat * s.width.toNat) * s.nbits.toNat / 8
  | .nop | .embed | .extract | .wreset | .wnext | .encode | .clrerr => 0

/-- The column "writes" of R75 for GRID: does the command write entry `p`? -/
def gridWrites (i : Instr) (s : State) (p : Nat) : Bool :=
  match i with
  | .embed => p == s.widx.toNat / 3
  | .encode => p < s.height.toNat * s.width.toNat
  | .nop | .tobits | .frombits | .group | .ungroup | .extract | .wreset | .wnext | .decode | .clrerr => false

end Sys2Proof.Machine
end

