-- ==== Sys2Proof/Certificates/Slice0/Obligations.lean ====
section
/-! DEFINITION. The statements about the model, each formalising numbered rules of spec/. N is `s.nbits.toNat`, L is
`s.srcLen.toNat`, H × W is `s.height.toNat * s.width.toNat`. A record equality `t = { s with f := t.f, … }` says that
every field not named is unchanged. -/

open Sys2Proof Sys2Proof.Machine

/-! ### Decoding -/

/-- R95, with the map of R92: 0x00 to 0x0B are the twelve commands, 0x0C to 0xFF are illegal. -/
def Obligations.DecoderIsTheOpcodeMap : Prop :=
  decodeOp 0x00 = .command .nop ∧ decodeOp 0x01 = .command .tobits ∧ decodeOp 0x02 = .command .frombits ∧
  decodeOp 0x03 = .command .group ∧ decodeOp 0x04 = .command .ungroup ∧ decodeOp 0x05 = .command .embed ∧
  decodeOp 0x06 = .command .extract ∧ decodeOp 0x07 = .command .wreset ∧ decodeOp 0x08 = .command .wnext ∧
  decodeOp 0x09 = .command .encode ∧ decodeOp 0x0A = .command .decode ∧ decodeOp 0x0B = .command .clrerr ∧
  ∀ op : Byte, 0x0C ≤ op.toNat → decodeOp op = .illegal op

/-- Decoding inverts encoding, and each command has one opcode (R92, R95). -/
def Obligations.DecodeInvertsEncode : Prop :=
  (∀ i : Instr, decodeOp (encode i) = .command i) ∧
  ∀ (op : Byte) (i : Instr), decodeOp op = .command i → op = encode i

/-- R90: the command is `v[7:0]`; bits 39 to 8 of a value written to CMD are ignored. -/
def Obligations.UpperCommandBitsIgnored : Prop :=
  ∀ (s : State) (v w : PortWord), v.setWidth 8 = w.setWidth 8 →
    takeMove (.cmd v) s = takeMove (.cmd w) s ∧ takeMove (.regWrite 0x00 v) s = takeMove (.regWrite 0x00 w) s

/-! ### The step -/

/-- When the host's next move writes a command word to CMD and waits, and the block is idle, the step is exec of the
decoded command, or the illegal command, in the state whose moves are the remaining ones. That the host's moves stand in
`State.moves` is the model's choice (log entry 2). -/
def Obligations.StepRunsDecodedCommand : Prop :=
  ∀ (s : State) (v : PortWord) (rest : List HostMove), s.moves = .cmd v :: rest → s.busy = false →
    (∀ i, decodeOp (v.setWidth 8) = .command i → step s = exec i { s with moves := rest }) ∧
    ∀ op, decodeOp (v.setWidth 8) = .illegal op → step s = illegalCommand { s with moves := rest }

/-- A command word placed by `withFetchWord` is what the very next step runs, in the state with the block idle. The
placing is the model's choice (log entry 2). -/
def Obligations.PlacedCommandRunsNext : Prop :=
  ∀ (s : State) (nbits w : Nat) (i : Instr), decodeTableWord nbits w = some i →
    step (s.withFetchWord nbits w) = exec i { s with busy := false, runningOp := 0 }

/-- The host's moves are taken in order, each in the state that holds the remaining ones; with none left, a running
command ends (R250) and an idle block "simply holds its state" (R227). The schedule is the model's choice (log entries 2
and 3). -/
def Obligations.StepTakesHostMovesInOrder : Prop :=
  (∀ (s : State) (m : HostMove) (rest : List HostMove), s.moves = m :: rest →
    step s = takeMove m { s with moves := rest }) ∧
  (∀ s : State, s.moves = [] → s.busy = false → step s = .next s) ∧
  ∀ s : State, s.moves = [] → s.busy = true → step s = takeMove .wait s

/-- R91: the write to CMD that opens the BUSY window, followed by the end of the command, is the same transition as the
command taken as one: "an accepted command is one transition from the state at the CMD write to the state at BUSY = 0".
An ignored write is the same too. Where the running command ends is the model's choice (log entry 3). -/
def Obligations.BusyWindowEqualsAtomicCommand : Prop :=
  ∀ (s : State) (v : PortWord), s.busy = false → s.runningOp = 0 →
    ∃ t u, takeMove (.regWrite 0x00 v) s = .next t ∧ takeMove .wait t = .next u ∧ takeMove (.cmd v) s = .next u

/-- R250: every command ends with BUSY = 0, issued whole or ended after a busy window, whatever the operands. Where a
busy window ends is the model's choice (log entry 3). -/
def Obligations.EveryCommandEnds : Prop :=
  (∀ (i : Instr) (s : State), s.busy = false → ∃ t, exec i s = .next t ∧ t.busy = false) ∧
  (∀ (v : PortWord) (s : State), ∃ t, takeMove (.cmd v) s = .next t ∧ t.busy = false) ∧
  ∀ s : State, ∃ t, takeMove .wait s = .next t ∧ t.busy = false

/-- The step answers a next state, but for one refusal: a host memory move while a command runs (R245). Refusing it is
the model's choice among the treatments of U3 (log entry 9). -/
def Obligations.StepAnswersUnlessMemoryIsBusy : Prop :=
  ∀ s : State, (∃ t, step s = .next t) ∨
    (step s = .refused .hostMemoryWhileBusy ∧ s.busy = true ∧
      ∃ m rest, s.moves = m :: rest ∧
        ((∃ a b, m = .ibufWrite a b) ∨ (∃ a, m = .ibufRead a) ∨ (∃ a, m = .obufRead a) ∨
          (∃ a w, m = .gridWrite a w) ∨ ∃ a, m = .gridRead a))

/-! ### The commands: control and walker -/

/-- R195: an accepted NOP only sets DONE; while ERR = 1 it is ignored. -/
def Obligations.NopOnlySetsDone : Prop :=
  (∀ s : State, ready s → exec .nop s = .next { s with done := true }) ∧
  ∀ s : State, s.busy = false → s.err = true → exec .nop s = .next s

/-- R196: CLRERR sets ERR and ERRCODE to 0 and DONE to 1, with ERR = 1 or 0, and is the only command accepted while
ERR = 1. -/
def Obligations.ClrerrClearsError : Prop :=
  (∀ s : State, s.busy = false → exec .clrerr s = .next { s with err := false, errcode := 0, done := true }) ∧
  ∀ (i : Instr) (s : State), s.err = true → i ≠ .clrerr → exec i s = .next s

/-- R154: WRESET sets WIDX to 0, whatever NBITS holds; WVALID then reads 1 exactly if HEIGHT × WIDTH > 0. -/
def Obligations.WresetRestartsCursor : Prop :=
  ∀ s : State, ready s →
    ∃ t, exec .wreset s = .next t ∧ t = { s with widx := 0, done := true } ∧
      (wvalid t = true ↔ 0 < s.height.toNat * s.width.toNat)

/-- R155: WNEXT adds 1 to WIDX while the cursor designates a channel; an exhausted cursor stays, without error. -/
def Obligations.WnextStepsCursor : Prop :=
  ∀ s : State, ready s →
    (s.widx.toNat < 3 * (s.height.toNat * s.width.toNat) →
      exec .wnext s = .next { s with widx := s.widx + 1, done := true }) ∧
    (3 * (s.height.toNat * s.width.toNat) ≤ s.widx.toNat → exec .wnext s = .next { s with done := true })

/-! ### The commands: serializer and packer -/

/-- R112: TOBITS leaves OBUF[0 .. 8 L) = toBits(IBUF[0 .. L)), each bit as 0x00 or 0x01, DST_LEN = 8 L and nothing else
changed; it raises RangeError, with no other effect, exactly when an extent does not fit. -/
def Obligations.TobitsSerializesInput : Prop :=
  ∀ s : State, ready s →
    (s.srcLen.toNat ≤ s.params.ibufDepth.val → 8 * s.srcLen.toNat ≤ s.params.obufDepth.val →
      ∃ t, exec .tobits s = .next t ∧ t = { s with obuf := t.obuf, dstLen := t.dstLen, done := true } ∧
        t.dstLen.toNat = 8 * s.srcLen.toNat ∧
        (∀ k j, k < s.srcLen.toNat → j ≤ 7 → readObuf t (8 * k + j) = (readIbuf s k >>> (7 - j)) &&& 1) ∧
        ∀ a, 8 * s.srcLen.toNat ≤ a → readObuf t a = readObuf s a) ∧
    (s.params.ibufDepth.val < s.srcLen.toNat ∨ s.params.obufDepth.val < 8 * s.srcLen.toNat →
      exec .tobits s = .next { s with done := false, err := true, errcode := 2 })

/-- R113: FROMBITS leaves OBUF[0 .. L div 8) = fromBits(b) with b[t] = IBUF[t] & 1, DST_LEN = L div 8 and nothing else
changed; it raises RangeError, with no other effect, exactly when an extent does not fit. -/
def Obligations.FrombitsDeserializesInput : Prop :=
  ∀ s : State, ready s →
    (s.srcLen.toNat ≤ s.params.ibufDepth.val → s.srcLen.toNat / 8 ≤ s.params.obufDepth.val →
      ∃ t, exec .frombits s = .next t ∧ t = { s with obuf := t.obuf, dstLen := t.dstLen, done := true } ∧
        t.dstLen.toNat = s.srcLen.toNat / 8 ∧
        (List.range (s.srcLen.toNat / 8)).map (readObuf t) =
          fromBits ((List.range s.srcLen.toNat).map fun k => (readIbuf s k).getLsbD 0) ∧
        ∀ a, s.srcLen.toNat / 8 ≤ a → readObuf t a = readObuf s a) ∧
    (s.params.ibufDepth.val < s.srcLen.toNat ∨ s.params.obufDepth.val < s.srcLen.toNat / 8 →
      exec .frombits s = .next { s with done := false, err := true, errcode := 2 })

/-- R124: GROUP leaves OBUF[0 .. g) = group(b, N) with b[t] = IBUF[t] & 1 and g = ceil_div(L, N), DST_LEN = g and nothing
else changed; ConfigurationError comes first, then RangeError, both without other effect. -/
def Obligations.GroupPacksInput : Prop :=
  ∀ s : State, ready s →
    (s.nbits.toNat ∉ [1, 2, 4, 8] → exec .group s = .next { s with done := false, err := true, errcode := 1 }) ∧
    (s.nbits.toNat ∈ [1, 2, 4, 8] →
      let g := (s.srcLen.toNat + s.nbits.toNat - 1) / s.nbits.toNat
      (s.srcLen.toNat ≤ s.params.ibufDepth.val → g ≤ s.params.obufDepth.val →
        ∃ t, exec .group s = .next t ∧ t = { s with obuf := t.obuf, dstLen := t.dstLen, done := true } ∧
          t.dstLen.toNat = g ∧
          (List.range g).map (readObuf t) =
            group ((List.range s.srcLen.toNat).map fun k => (readIbuf s k).getLsbD 0) s.nbits.toNat ∧
          ∀ a, g ≤ a → readObuf t a = readObuf s a) ∧
      (s.params.ibufDepth.val < s.srcLen.toNat ∨ s.params.obufDepth.val < g →
        exec .group s = .next { s with done := false, err := true, errcode := 2 }))

/-- R125: UNGROUP leaves OBUF[0 .. N g) = ungroup(IBUF[0 .. g), N) with g = SRC_LEN, one bit per entry, DST_LEN = N g and
nothing else changed; ConfigurationError comes first, then RangeError, both without other effect. -/
def Obligations.UngroupUnpacksInput : Prop :=
  ∀ s : State, ready s →
    (s.nbits.toNat ∉ [1, 2, 4, 8] → exec .ungroup s = .next { s with done := false, err := true, errcode := 1 }) ∧
    (s.nbits.toNat ∈ [1, 2, 4, 8] →
      let n := s.nbits.toNat
      (s.srcLen.toNat ≤ s.params.ibufDepth.val → n * s.srcLen.toNat ≤ s.params.obufDepth.val →
        ∃ t, exec .ungroup s = .next t ∧ t = { s with obuf := t.obuf, dstLen := t.dstLen, done := true } ∧
          t.dstLen.toNat = n * s.srcLen.toNat ∧
          (∀ i j, i < s.srcLen.toNat → j < n →
            readObuf t (n * i + j) =
              ((readIbuf s i &&& BitVec.ofNat 8 (2 ^ n - 1)) >>> (n - 1 - j)) &&& 1) ∧
          ∀ a, n * s.srcLen.toNat ≤ a → readObuf t a = readObuf s a) ∧
      (s.params.ibufDepth.val < s.srcLen.toNat ∨ s.params.obufDepth.val < n * s.srcLen.toNat →
        exec .ungroup s = .next { s with done := false, err := true, errcode := 2 }))

/-! ### The commands: channel codec -/

/-- R143, with R140 and R144: EMBED puts D_IN & LO(N) into the channel at the cursor, sets that pixel's alpha to 255 and
changes nothing else, the cursor included; ConfigurationError comes first, then RangeError, both without other effect. -/
def Obligations.EmbedWritesChannelAtCursor : Prop :=
  ∀ s : State, ready s →
    let n := s.nbits.toNat
    let i := s.widx.toNat
    let channels := 3 * (s.height.toNat * s.width.toNat)
    (n ∉ [1, 2, 4, 8] → exec .embed s = .next { s with done := false, err := true, errcode := 1 }) ∧
    (n ∈ [1, 2, 4, 8] →
      (channels ≤ i ∨ s.params.gridDepth.val ≤ i / 3 →
        exec .embed s = .next { s with done := false, err := true, errcode := 2 }) ∧
      (i < channels → i / 3 < s.params.gridDepth.val →
        let q := readGrid s (i / 3)
        let d := s.dIn &&& BitVec.ofNat 8 (2 ^ n - 1)
        ∃ t, exec .embed s = .next t ∧ t = { s with grid := t.grid, done := true } ∧
          (i % 3 = 0 → readGrid t (i / 3) = ⟨embed q.r d n, q.g, q.b, 255⟩) ∧
          (i % 3 = 1 → readGrid t (i / 3) = ⟨q.r, embed q.g d n, q.b, 255⟩) ∧
          (i % 3 = 2 → readGrid t (i / 3) = ⟨q.r, q.g, embed q.b d n, 255⟩) ∧
          ∀ p, p ≠ i / 3 → readGrid t p = readGrid s p))

/-- R145, with R139: EXTRACT puts the low N bits of the channel at the cursor into D_OUT and changes nothing else;
ConfigurationError comes first, then RangeError, both without other effect. -/
def Obligations.ExtractReadsChannelAtCursor : Prop :=
  ∀ s : State, ready s →
    let n := s.nbits.toNat
    let i := s.widx.toNat
    let channels := 3 * (s.height.toNat * s.width.toNat)
    (n ∉ [1, 2, 4, 8] → exec .extract s = .next { s with done := false, err := true, errcode := 1 }) ∧
    (n ∈ [1, 2, 4, 8] →
      (channels ≤ i ∨ s.params.gridDepth.val ≤ i / 3 →
        exec .extract s = .next { s with done := false, err := true, errcode := 2 }) ∧
      (i < channels → i / 3 < s.params.gridDepth.val →
        let q := readGrid s (i / 3)
        ∃ t, exec .extract s = .next t ∧ t = { s with dOut := t.dOut, done := true } ∧
          (i % 3 = 0 → t.dOut.toNat = q.r.toNat % 2 ^ n) ∧
          (i % 3 = 1 → t.dOut.toNat = q.g.toNat % 2 ^ n) ∧
          (i % 3 = 2 → t.dOut.toNat = q.b.toNat % 2 ^ n)))

/-! ### The commands: encoder and decoder -/

/-- R165: ENCODE embeds dv = group(toBits(message), N) into the channels of the grid in order, 0 where the message has
ended, leaves WIDX = 3 H W and changes nothing else; ConfigurationError comes first, then RangeError. -/
def Obligations.EncodeEmbedsMessage : Prop :=
  ∀ s : State, ready s →
    let n := s.nbits.toNat
    let pixels := s.height.toNat * s.width.toNat
    (n ∉ [1, 2, 4, 8] → exec .encode s = .next { s with done := false, err := true, errcode := 1 }) ∧
    (n ∈ [1, 2, 4, 8] →
      (s.params.ibufDepth.val < s.srcLen.toNat ∨ s.params.gridDepth.val < pixels →
        exec .encode s = .next { s with done := false, err := true, errcode := 2 }) ∧
      (s.srcLen.toNat ≤ s.params.ibufDepth.val → pixels ≤ s.params.gridDepth.val →
        let dv := group (toBits ((List.range s.srcLen.toNat).map (readIbuf s))) n
        let d := fun i => if i < dv.length then dv.getD i 0 else 0
        ∃ t, exec .encode s = .next t ∧ t = { s with grid := t.grid, widx := t.widx, done := true } ∧
          t.widx.toNat = 3 * pixels ∧
          (∀ p, p < pixels →
            readGrid t p =
              ⟨embed (readGrid s p).r (d (3 * p)) n, embed (readGrid s p).g (d (3 * p + 1)) n,
                embed (readGrid s p).b (d (3 * p + 2)) n, 255⟩) ∧
          ∀ p, pixels ≤ p → readGrid t p = readGrid s p))

/-- R167 with the data values of R166: the grid after ENCODE in closed form, the i-th data value being N bits of message
byte i div q, with q = 8 / N, and 0 for i at or above q L; high segments are kept and every alpha is 255. -/
def Obligations.EncodeClosedForm : Prop :=
  ∀ s : State, ready s → s.nbits.toNat ∈ [1, 2, 4, 8] →
    s.srcLen.toNat ≤ s.params.ibufDepth.val → s.height.toNat * s.width.toNat ≤ s.params.gridDepth.val →
    let n := s.nbits.toNat
    let q := 8 / n
    let lo : Byte := BitVec.ofNat 8 (2 ^ n - 1)
    let hi : Byte := 255 - lo
    let d : Nat → Byte := fun i =>
      if i < q * s.srcLen.toNat then (readIbuf s (i / q) >>> (8 - n - n * (i % q))) &&& lo else 0
    ∃ t, exec .encode s = .next t ∧ t.done = true ∧ t.err = false ∧
      (∀ p, p < s.height.toNat * s.width.toNat →
        readGrid t p =
          ⟨((readGrid s p).r &&& hi) ||| d (3 * p), ((readGrid s p).g &&& hi) ||| d (3 * p + 1),
            ((readGrid s p).b &&& hi) ||| d (3 * p + 2), 255⟩) ∧
      ∀ p, s.height.toNat * s.width.toNat ≤ p → readGrid t p = readGrid s p

/-- R180: DECODE extracts a data value from every channel in order and leaves fromBits(ungroup(dv, N)) in OBUF, DST_LEN =
(3 H W N) div 8, WIDX = 3 H W and nothing else changed; ConfigurationError comes first, then RangeError. -/
def Obligations.DecodeReassemblesBytes : Prop :=
  ∀ s : State, ready s →
    let n := s.nbits.toNat
    let pixels := s.height.toNat * s.width.toNat
    let len := 3 * pixels * n / 8
    (n ∉ [1, 2, 4, 8] → exec .decode s = .next { s with done := false, err := true, errcode := 1 }) ∧
    (n ∈ [1, 2, 4, 8] →
      (s.params.gridDepth.val < pixels ∨ s.params.obufDepth.val < len →
        exec .decode s = .next { s with done := false, err := true, errcode := 2 }) ∧
      (pixels ≤ s.params.gridDepth.val → len ≤ s.params.obufDepth.val →
        let dv := (List.range (3 * pixels)).map fun i => extract (chan (readGrid s (i / 3)) (channelOf i)) n
        ∃ t, exec .decode s = .next t ∧
          t = { s with obuf := t.obuf, dstLen := t.dstLen, widx := t.widx, done := true } ∧
          t.dstLen.toNat = len ∧ t.widx.toNat = 3 * pixels ∧
          (List.range len).map (readObuf t) = fromBits (ungroup dv n) ∧
          ∀ a, len ≤ a → readObuf t a = readObuf s a))

/-- R181: the decoded bytes in closed form: byte k is the sum over j < q of the low segment of channel q k + j, shifted
left by 8 − N (j + 1); entries from the result's length on are unchanged. -/
def Obligations.DecodeClosedForm : Prop :=
  ∀ s : State, ready s → s.nbits.toNat ∈ [1, 2, 4, 8] →
    s.height.toNat * s.width.toNat ≤ s.params.gridDepth.val →
    3 * (s.height.toNat * s.width.toNat) * s.nbits.toNat / 8 ≤ s.params.obufDepth.val →
    let n := s.nbits.toNat
    let q := 8 / n
    let ch : Nat → Nat := fun i => (chan (readGrid s (i / 3)) (channelOf i)).toNat
    ∃ t, exec .decode s = .next t ∧ t.done = true ∧ t.err = false ∧
      (∀ k, k < 3 * (s.height.toNat * s.width.toNat) * n / 8 →
        (readObuf t k).toNat = ∑ j ∈ Finset.range q, (ch (q * k + j) % 2 ^ n) * 2 ^ (8 - n * (j + 1))) ∧
      ∀ k, 3 * (s.height.toNat * s.width.toNat) * n / 8 ≤ k → readObuf t k = readObuf s k

/-! ### Errors -/

/-- R210: the six commands that use N raise ConfigurationError, with no other effect, unless NBITS is 1, 2, 4 or 8 (0 and
every value above 8 included), whatever the range checks would say; the other six do the same whatever NBITS holds; and
writing a bad value to NBITS is not an error by itself. -/
def Obligations.InvalidNRaisesConfigurationError : Prop :=
  (∀ i ∈ [Instr.group, .ungroup, .embed, .extract, .encode, .decode], ∀ s : State, ready s →
    s.nbits.toNat ∉ [1, 2, 4, 8] → exec i s = .next { s with done := false, err := true, errcode := 1 }) ∧
  (∀ i ∈ [Instr.tobits, .frombits, .wreset, .wnext, .nop, .clrerr], ∀ (s : State) (b : Byte),
    ∃ t, exec i s = .next t ∧ exec i { s with nbits := b } = .next { t with nbits := b }) ∧
  ∀ (s : State) (v : PortWord), s.busy = false →
    takeMove (.regWrite 0x03 v) s = .next { s with nbits := v.setWidth 8 }

/-- R211: the range table. For a command that uses N, N is one of 1, 2, 4, 8 here (the N check comes before). -/
def Obligations.RangeErrorTable : Prop :=
  ∀ s : State, ready s →
    let n := s.nbits.toNat
    let len := s.srcLen.toNat
    let pixels := s.height.toNat * s.width.toNat
    let i := s.widx.toNat
    let fails := Host.Outcome.next (φ := Fault) (ρ := Refusal) { s with done := false, err := true, errcode := 2 }
    (s.params.ibufDepth.val < len ∨ s.params.obufDepth.val < 8 * len → exec .tobits s = fails) ∧
    (s.params.ibufDepth.val < len ∨ s.params.obufDepth.val < len / 8 → exec .frombits s = fails) ∧
    (n ∈ [1, 2, 4, 8] →
      (s.params.ibufDepth.val < len ∨ s.params.obufDepth.val < (len + n - 1) / n → exec .group s = fails) ∧
      (s.params.ibufDepth.val < len ∨ s.params.obufDepth.val < n * len → exec .ungroup s = fails) ∧
      (3 * pixels ≤ i ∨ s.params.gridDepth.val ≤ i / 3 → exec .embed s = fails ∧ exec .extract s = fails) ∧
      (s.params.ibufDepth.val < len ∨ s.params.gridDepth.val < pixels → exec .encode s = fails) ∧
      (s.params.gridDepth.val < pixels ∨ s.params.obufDepth.val < 3 * pixels * n / 8 → exec .decode s = fails))

/-- R94: an accepted write of an opcode 0x0C to 0xFF to CMD sets ERR to 1 and ERRCODE to 3 and changes nothing else but
DONE. -/
def Obligations.IllegalOpcodeRaisesIllegalCommand : Prop :=
  ∀ (s : State) (v : PortWord), ready s → 0x0C ≤ (v.setWidth 8 : Byte).toNat →
    takeMove (.cmd v) s = .next { s with done := false, err := true, errcode := 3 }

/-- R212: errors are precise: a command that fails changes nothing but BUSY, DONE, ERR and ERRCODE. -/
def Obligations.ErrorsArePrecise : Prop :=
  ∀ (s t : State) (v : PortWord), ready s → takeMove (.cmd v) s = .next t → t.err = true →
    t = { s with done := false, err := true, errcode := t.errcode } ∧ t.errcode ≠ 0

/-- R216: the flags after a write to CMD, for every case, with the block idle. The checks are those of R210 and R211 in
the order of R214 (`failingCheck`); a command whose checks all pass has the effect `exec` gives it, which the command's
own statement spells out. -/
def Obligations.FlagsAfterCommandWrite : Prop :=
  ∀ (s : State) (v : PortWord), s.busy = false → flagsOk s →
    let op : Byte := v.setWidth 8
    (s.err = false → ∀ i, op = encode i →
      ∃ t, takeMove (.cmd v) s = .next t ∧ exec i s = .next t ∧
        (failingCheck i s = 0 → t.done = true ∧ t.err = false ∧ t.errcode = 0) ∧
        (failingCheck i s ≠ 0 → t = { s with done := false, err := true, errcode := failingCheck i s })) ∧
    (s.err = false → 0x0C ≤ op.toNat →
      takeMove (.cmd v) s = .next { s with done := false, err := true, errcode := 3 }) ∧
    (s.err = true → op = 0x0B → takeMove (.cmd v) s = .next { s with done := true, err := false, errcode := 0 }) ∧
    (s.err = true → op ≠ 0x0B → takeMove (.cmd v) s = .next s)

/-- R217: while ERR = 1 every write to CMD but CLRERR is ignored, issued either way; register writes and memory moves of
the host do what they do with ERR = 0, and every register can be read. -/
def Obligations.ErrorStateHoldsCommandsOff : Prop :=
  (∀ (s : State) (v : PortWord), s.busy = false → s.err = true → (v.setWidth 8 : Byte) ≠ 0x0B →
    takeMove (.cmd v) s = .next s ∧ takeMove (.regWrite 0x00 v) s = .next s) ∧
  ∀ (s : State) (e : Bool), s.busy = false →
    (∀ n v, n ≠ 0x00 → ∃ t, takeMove (.regWrite n v) s = .next t ∧
      takeMove (.regWrite n v) { s with err := e } = .next { t with err := e }) ∧
    (∀ n, ∃ t, takeMove (.regRead n) s = .next t) ∧
    ∀ a b w, ∀ m ∈ [HostMove.ibufWrite a b, .ibufRead a, .obufRead a, .gridWrite a w, .gridRead a],
      ∃ t, takeMove m s = .next t ∧ takeMove m { s with err := e } = .next { t with err := e }

/-- R218: CLRERR after a command that failed gives back the state the failing command found, with DONE = 1. -/
def Obligations.ClrerrRecoversFailedCommand : Prop :=
  ∀ (s t : State) (v : PortWord), ready s → s.errcode = 0 → takeMove (.cmd v) s = .next t → t.err = true →
    exec .clrerr t = .next { s with done := true }

/-! ### What a command reads and writes -/

/-- R40: the registers and memories each command may write; every other one is unchanged in the next state. -/
def Obligations.CommandsWriteOnlyTheirRegisters : Prop :=
  ∀ (i : Instr) (s t : State), exec i s = .next t →
    t.nbits = s.nbits ∧ t.width = s.width ∧ t.height = s.height ∧ t.srcLen = s.srcLen ∧ t.dIn = s.dIn ∧
    t.ibuf = s.ibuf ∧ t.params = s.params ∧ t.moves = s.moves ∧ t.runningOp = s.runningOp ∧
    t.lastRead = s.lastRead ∧ t.freeDraw = s.freeDraw ∧
    (i ∉ [Instr.tobits, .frombits, .group, .ungroup, .decode] → t.dstLen = s.dstLen ∧ t.obuf = s.obuf) ∧
    (i ≠ .extract → t.dOut = s.dOut) ∧
    (i ∉ [Instr.wreset, .wnext, .encode, .decode] → t.widx = s.widx) ∧
    (i ∉ [Instr.embed, .encode] → t.grid = s.grid) ∧
    (i ≠ .clrerr → (t.err = s.err ∧ t.errcode = s.errcode) ∨ (s.err = false ∧ t.err = true ∧ t.errcode ≠ 0))

/-- R75, column "writes": every entry of every memory outside the command's write set reads as before. -/
def Obligations.CommandsWriteOnlyTheirEntries : Prop :=
  ∀ (i : Instr) (s t : State), exec i s = .next t →
    (∀ k, readIbuf t k = readIbuf s k) ∧
    (∀ k, obufWrites i s ≤ k → readObuf t k = readObuf s k) ∧
    ∀ p, gridWrites i s p = false → readGrid t p = readGrid s p

/-- R75, column "reads": a command depends on the memories only through the entries of its read set. Two states that
agree on everything but memory contents outside it give the same registers and flags and the same written entries. -/
def Obligations.CommandsReadOnlyTheirEntries : Prop :=
  ∀ (i : Instr) (s t : State), ready s →
    t = { s with ibuf := t.ibuf, obuf := t.obuf, grid := t.grid } →
    (∀ k, k < ibufReads i s → readIbuf t k = readIbuf s k) →
    (∀ p, gridReads i s p = true → readGrid t p = readGrid s p) →
    ∃ s' t', exec i s = .next s' ∧ exec i t = .next t' ∧
      t' = { s' with ibuf := t'.ibuf, obuf := t'.obuf, grid := t'.grid } ∧
      (s'.err = false →
        (∀ k, k < obufWrites i s → readObuf t' k = readObuf s' k) ∧
        ∀ p, gridWrites i s p = true → readGrid t' p = readGrid s' p)

/-- R42: no command reads alpha. Two states whose grids differ in alpha only give the same registers, flags and OBUF and
the same red, green and blue. -/
def Obligations.AlphaIsNeverRead : Prop :=
  ∀ (i : Instr) (s t : State), t = { s with grid := t.grid } →
    (∀ p, (readGrid t p).r = (readGrid s p).r ∧ (readGrid t p).g = (readGrid s p).g ∧
      (readGrid t p).b = (readGrid s p).b) →
    ∃ s' t', exec i s = .next s' ∧ exec i t = .next t' ∧ t' = { s' with grid := t'.grid } ∧
      ∀ p, (readGrid t' p).r = (readGrid s' p).r ∧ (readGrid t' p).g = (readGrid s' p).g ∧
        (readGrid t' p).b = (readGrid s' p).b

/-! ### The pure functions -/

/-- R110: `toBits(B)[8 k + j] = (B[k] >> (7 − j)) & 1`, in 8 |B| bits. -/
def Obligations.ToBitsFormula : Prop :=
  ∀ bytes : List Byte, (toBits bytes).length = 8 * bytes.length ∧
    ∀ (k j : Nat) (h : k < bytes.length), j ≤ 7 →
      (toBits bytes)[8 * k + j]? = some ((bytes[k] >>> (7 - j)) &&& 1 == 1)

/-- R111: `fromBits(bits)[k]` is the sum of `bits[8 k + j] << (7 − j)`, for k below |bits| div 8; the rest is dropped. -/
def Obligations.FromBitsFormula : Prop :=
  ∀ bits : List Bool, (fromBits bits).length = bits.length / 8 ∧
    ∀ k, k < bits.length / 8 →
      (fromBits bits)[k]?.map BitVec.toNat =
        some (∑ j ∈ Finset.range 8, (bits.getD (8 * k + j) false).toNat * 2 ^ (7 - j))

/-- R120: `group(bits, N)[i]` is the sum of `b'(N i + j) << (N − 1 − j)`, with b' zero beyond the end, for i below
ceil_div(|bits|, N); every element lies below 2^N. -/
def Obligations.GroupFormula : Prop :=
  ∀ (bits : List Bool) (n : Nat), n ∈ [1, 2, 4, 8] →
    (group bits n).length = (bits.length + n - 1) / n ∧
    (∀ i, i < (bits.length + n - 1) / n →
      (group bits n)[i]?.map BitVec.toNat =
        some (∑ j ∈ Finset.range n, (bits.getD (n * i + j) false).toNat * 2 ^ (n - 1 - j))) ∧
    ∀ v ∈ group bits n, v.toNat < 2 ^ n

/-- R121: `ungroup(vals, N)[N i + j] = ((vals[i] & LO(N)) >> (N − 1 − j)) & 1`, in N g bits. -/
def Obligations.UngroupFormula : Prop :=
  ∀ (vals : List Byte) (n : Nat), n ∈ [1, 2, 4, 8] →
    (ungroup vals n).length = n * vals.length ∧
    ∀ (i j : Nat) (h : i < vals.length), j < n →
      (ungroup vals n)[n * i + j]? =
        some (((vals[i] &&& BitVec.ofNat 8 (2 ^ n - 1)) >>> (n - 1 - j)) &&& 1 == 1)

/-- R114 and R115: the bit round-trip, and the laws of toBits and fromBits. -/
def Obligations.BitStreamLaws : Prop :=
  (∀ bytes : List Byte, fromBits (toBits bytes) = bytes) ∧
  (∀ bits : List Bool, toBits (fromBits bits) = bits.take (8 * (bits.length / 8))) ∧
  (∀ bits : List Bool, fromBits bits = fromBits (bits.take (8 * (bits.length / 8)))) ∧
  (∀ a b : List Byte, toBits (a ++ b) = toBits a ++ toBits b ∧ (toBits a).length = 8 * a.length) ∧
  ∀ a b : List Bool, (fromBits a).length = a.length / 8 ∧
    (8 ∣ a.length → fromBits (a ++ b) = fromBits a ++ fromBits b)

/-- R127 and R128: the group round-trip, and the laws of group and ungroup. -/
def Obligations.BitPackerLaws : Prop :=
  ∀ n : Nat, n ∈ [1, 2, 4, 8] →
    (∀ bits : List Bool, n ∣ bits.length → ungroup (group bits n) n = bits) ∧
    (∀ bits : List Bool, (group bits n).length = (bits.length + n - 1) / n ∧
      ungroup (group bits n) n = bits ++ List.replicate ((n - bits.length % n) % n) false) ∧
    (∀ vals : List Byte, (ungroup vals n).length = n * vals.length ∧
      group (ungroup vals n) n = vals.map fun v => v &&& BitVec.ofNat 8 (2 ^ n - 1)) ∧
    ∀ a b : List Bool, n ∣ a.length → group (a ++ b) n = group a n ++ group b n

/-- R126: grouping the bits of a byte buffer cuts each byte into 8 / N fields, first field at the top, and fromBits after
ungroup puts them together again. -/
def Obligations.PackedFieldClosedForms : Prop :=
  ∀ n : Nat, n ∈ [1, 2, 4, 8] →
    let q := 8 / n
    let lo : Byte := BitVec.ofNat 8 (2 ^ n - 1)
    (∀ bytes : List Byte, (group (toBits bytes) n).length = q * bytes.length) ∧
    (∀ vals : List Byte, (fromBits (ungroup vals n)).length = n * vals.length / 8) ∧
    (∀ (bytes : List Byte) (i : Nat) (h : i / q < bytes.length),
      (group (toBits bytes) n)[i]? = some ((bytes[i / q] >>> (8 - n - n * (i % q))) &&& lo)) ∧
    (∀ (vals : List Byte) (k : Nat), k < n * vals.length / 8 →
      (fromBits (ungroup vals n))[k]?.map BitVec.toNat =
        some (∑ j ∈ Finset.range q, (vals.getD (q * k + j) 0 &&& lo).toNat * 2 ^ (8 - n * (j + 1)))) ∧
    (n = 8 → ∀ bytes : List Byte, group (toBits bytes) n = bytes ∧ fromBits (ungroup bytes n) = bytes)

/-- R136 and R138: embed clears the low N bits and adds the data value there, which is the same as or-ing it, with no
carry. -/
def Obligations.EmbedReplacesLowSegment : Prop :=
  ∀ (n : Nat) (v d : Byte), n ∈ [1, 2, 4, 8] → d.toNat < 2 ^ n →
    embed v d n = (v &&& (255 - BitVec.ofNat 8 (2 ^ n - 1))) ||| d ∧
    (embed v d n).toNat = (v &&& (255 - BitVec.ofNat 8 (2 ^ n - 1))).toNat + d.toNat ∧
    (v &&& (255 - BitVec.ofNat 8 (2 ^ n - 1))).toNat = v.toNat / 2 ^ n * 2 ^ n

/-- R142: extracting what was embedded gives it back, and the high segment is kept. -/
def Obligations.ChannelRoundTrip : Prop :=
  ∀ (n : Nat) (v d : Byte), n ∈ [1, 2, 4, 8] → d.toNat < 2 ^ n →
    extract (embed v d n) n = d ∧ embed v d n >>> n = v >>> n

/-! ### The traversal -/

/-- R156: in a non-empty grid the cursor's column, row and channel correspond one to one to the channel index, i = 3 (y W +
x) + c, and WNEXT takes (x, y, c) to its successor. -/
def Obligations.CursorWalksTraversalOrder : Prop :=
  ∀ s : State, ready s → 0 < s.width.toNat → 0 < s.height.toNat →
    let w := s.width.toNat
    let h := s.height.toNat
    let x := cursorColumn s
    let y := cursorRow s
    let c := s.widx.toNat % 3
    (∀ x' y' c', x' < w → y' < h → c' ≤ 2 → s.widx.toNat = 3 * (y' * w + x') + c' →
      wvalid s = true ∧ x = x' ∧ y = y' ∧ c = c') ∧
    (wvalid s = true →
      x < w ∧ y < h ∧ s.widx.toNat = 3 * (y * w + x) + c ∧
      ∃ t, exec .wnext s = .next t ∧
        (c < 2 → wvalid t = true ∧ cursorColumn t = x ∧ cursorRow t = y ∧ t.widx.toNat % 3 = c + 1) ∧
        (c = 2 → x + 1 < w →
          wvalid t = true ∧ cursorColumn t = x + 1 ∧ cursorRow t = y ∧ t.widx.toNat % 3 = 0) ∧
        (c = 2 → x + 1 = w → y + 1 < h →
          wvalid t = true ∧ cursorColumn t = 0 ∧ cursorRow t = y + 1 ∧ t.widx.toNat % 3 = 0) ∧
        (c = 2 → x + 1 = w → y + 1 = h → wvalid t = false))

/-- R157: WRESET followed by k WNEXT leaves the cursor at channel k, for every k up to 3 H W; it designates a channel for
each k below 3 H W and none at 3 H W, so the loop's body runs exactly 3 H W times. -/
def Obligations.WalkLoopVisitsEveryChannel : Prop :=
  ∀ (s : State) (k : Nat), ready s → k ≤ 3 * (s.height.toNat * s.width.toNat) →
    ∃ t, (Host.Core.run Sys2Proof.core (k + 1)
        { s with moves := HostMove.cmd 0x07 :: List.replicate k (.cmd 0x08) } :
          Host.Outcome State Fault Refusal) = .next t ∧
      t = { s with moves := [], widx := t.widx, done := true } ∧ t.widx.toNat = k ∧
      (wvalid t = true ↔ k < 3 * (s.height.toNat * s.width.toNat))

/-! ### Encoding and decoding together -/

/-- R173: ENCODE equals the host loop that writes each channel's data value to D_IN, embeds it and steps the cursor,
except for the value left in D_IN. -/
def Obligations.EncodeEqualsUnitCommandLoop : Prop :=
  ∀ s : State, ready s → s.nbits.toNat ∈ [1, 2, 4, 8] →
    s.srcLen.toNat ≤ s.params.ibufDepth.val → s.height.toNat * s.width.toNat ≤ s.params.gridDepth.val →
    let channels := 3 * (s.height.toNat * s.width.toNat)
    let dv := group (toBits ((List.range s.srcLen.toNat).map (readIbuf s))) s.nbits.toNat
    let script : List HostMove := .cmd 0x07 ::
      (List.range channels).flatMap fun i =>
        [.regWrite 0x08 ((dv.getD i 0).setWidth 40), .cmd 0x05, .cmd 0x08]
    ∃ t u, exec .encode s = .next t ∧
      (Host.Core.run Sys2Proof.core script.length { s with moves := script } :
        Host.Outcome State Fault Refusal) = .next u ∧
      u = { t with moves := [], dIn := if channels = 0 then s.dIn else dv.getD (channels - 1) 0 }

/-- R175: ENCODE issued twice gives the grid it gives once, and ENCODE of a second message with the same N gives the grid
it would have given without the first. -/
def Obligations.EncodeReplacesEarlierMessage : Prop :=
  ∀ (s t : State) (message : Memory Byte) (len : BitVec 40), ready s → exec .encode s = .next t → t.err = false →
    (∃ u, exec .encode t = .next u ∧ u = { t with grid := u.grid } ∧ ∀ p, readGrid u p = readGrid t p) ∧
    ∃ u v, exec .encode { t with ibuf := message, srcLen := len } = .next u ∧
      exec .encode { s with ibuf := message, srcLen := len } = .next v ∧ u.err = v.err ∧
      (v.err = false → ∀ p, readGrid u p = readGrid v p)

/-- R185, with the padding of R184: ENCODE, then DECODE in any ready state in which GRID, WIDTH, HEIGHT and NBITS are as
ENCODE left them, whatever else the host has done between, gives back a message that fits, followed by zero bytes up to
the capacity. -/
def Obligations.DecodeRecoversMessage : Prop :=
  ∀ s : State, ready s → s.nbits.toNat ∈ [1, 2, 4, 8] →
    s.srcLen.toNat ≤ s.params.ibufDepth.val → s.height.toNat * s.width.toNat ≤ s.params.gridDepth.val →
    3 * (s.height.toNat * s.width.toNat) * s.nbits.toNat / 8 ≤ s.params.obufDepth.val →
    8 * s.srcLen.toNat ≤ 3 * (s.height.toNat * s.width.toNat) * s.nbits.toNat →
    ∃ t, exec .encode s = .next t ∧ t.done = true ∧ t.err = false ∧
      ∀ u : State, ready u → u.width = t.width → u.height = t.height → u.nbits = t.nbits → u.params = t.params →
        (∀ p, p < s.height.toNat * s.width.toNat → readGrid u p = readGrid t p) →
        ∃ w, exec .decode u = .next w ∧ w.done = true ∧ w.err = false ∧
          (∀ k, k < s.srcLen.toNat → readObuf w k = readIbuf s k) ∧
          ∀ k, s.srcLen.toNat ≤ k → k < 3 * (s.height.toNat * s.width.toNat) * s.nbits.toNat / 8 →
            readObuf w k = 0

/-- R187: ENCODE then DECODE of a message larger than the capacity gives the message truncated to whole bytes, both
commands completing without error. -/
def Obligations.DecodeTruncatesAtCapacity : Prop :=
  ∀ s : State, ready s → s.nbits.toNat ∈ [1, 2, 4, 8] →
    s.srcLen.toNat ≤ s.params.ibufDepth.val → s.height.toNat * s.width.toNat ≤ s.params.gridDepth.val →
    3 * (s.height.toNat * s.width.toNat) * s.nbits.toNat / 8 ≤ s.params.obufDepth.val →
    3 * (s.height.toNat * s.width.toNat) * s.nbits.toNat < 8 * s.srcLen.toNat →
    ∃ t u, exec .encode s = .next t ∧ exec .decode t = .next u ∧
      t.done = true ∧ t.err = false ∧ u.done = true ∧ u.err = false ∧
      u.dstLen.toNat = 3 * (s.height.toNat * s.width.toNat) * s.nbits.toNat / 8 ∧
      ∀ k, k < 3 * (s.height.toNat * s.width.toNat) * s.nbits.toNat / 8 → readObuf u k = readIbuf s k

/-! ### The host's moves -/

/-- R34 and R35, on an idle block: what a write to each register number but CMD does. -/
def Obligations.RegisterWrites : Prop :=
  ∀ (s : State) (v : PortWord), s.busy = false →
    takeMove (.regWrite 0x03 v) s = .next { s with nbits := v.setWidth 8 } ∧
    takeMove (.regWrite 0x04 v) s = .next { s with width := v.setWidth 16, widx := 0 } ∧
    takeMove (.regWrite 0x05 v) s = .next { s with height := v.setWidth 16, widx := 0 } ∧
    takeMove (.regWrite 0x06 v) s = .next { s with srcLen := v } ∧
    takeMove (.regWrite 0x08 v) s = .next { s with dIn := v.setWidth 8 } ∧
    (∀ n ∈ [0x01, 0x02, 0x07, 0x09, 0x0A, 0x0B, 0x0C, 0x0D], takeMove (.regWrite n v) s = .next s) ∧
    ∀ n, 0x0E ≤ n → takeMove (.regWrite n v) s = .next s

/-- R22 and R31, on an idle block whose cursor keeps the bound of R30: what a read of each register number gives. The
field the value is kept in is the model's own (log entry 7). -/
def Obligations.RegisterReads : Prop :=
  ∀ s : State, s.busy = false → cursorOk s →
    let reads := fun (n x : Nat) => takeMove (.regRead n) s = .next { s with lastRead := BitVec.ofNat 40 x }
    let i := s.widx.toNat
    let w := s.width.toNat
    let h := s.height.toNat
    reads 0x00 0 ∧
    reads 0x01 (2 * s.done.toNat + 4 * s.err.toNat + 8 * (if i < 3 * (h * w) then 1 else 0)) ∧
    reads 0x02 s.errcode.toNat ∧ reads 0x03 s.nbits.toNat ∧ reads 0x04 w ∧ reads 0x05 h ∧
    reads 0x06 s.srcLen.toNat ∧ reads 0x07 s.dstLen.toNat ∧ reads 0x08 s.dIn.toNat ∧ reads 0x09 s.dOut.toNat ∧
    reads 0x0A i ∧ reads 0x0B (if w = 0 then 0 else i / 3 % w) ∧ reads 0x0C (if w = 0 then 0 else i / 3 / w) ∧
    reads 0x0D (i % 3) ∧ ∀ n, 0x0E ≤ n → reads n 0

/-- R38 and R245: while BUSY = 1 every register write is ignored, STATUS reads bit 0 = 1, a read changes nothing of the
block, and every host access to a memory is refused. The free values and the refusal are the model's forms of U4 and U3
(log entries 6 and 9). -/
def Obligations.BusyWindowShutsTheHostOut : Prop :=
  ∀ s : State, s.busy = true →
    (∀ n v, takeMove (.regWrite n v) s = .next s) ∧
    (∀ n, ∃ t, takeMove (.regRead n) s = .next t ∧
      t = { s with lastRead := t.lastRead, freeDraw := t.freeDraw } ∧
      (n = 0x01 → t.lastRead.getLsbD 0 = true ∧ t.lastRead.toNat < 16)) ∧
    (∀ a b, takeMove (.ibufWrite a b) s = .refused .hostMemoryWhileBusy) ∧
    (∀ a w, takeMove (.gridWrite a w) s = .refused .hostMemoryWhileBusy) ∧
    ∀ a, takeMove (.ibufRead a) s = .refused .hostMemoryWhileBusy ∧
      takeMove (.obufRead a) s = .refused .hostMemoryWhileBusy ∧
      takeMove (.gridRead a) s = .refused .hostMemoryWhileBusy

/-- R84 with the packing of R64, on an idle block: a memory move below the depth reads or writes its entry and nothing
else; R76: a write at or above the depth is ignored. The field a read's value is kept in is the model's own (log entry 7). -/
def Obligations.HostMemoryMoves : Prop :=
  ∀ (s : State) (a : Nat) (b : Byte) (w : PixelWord), s.busy = false →
    (a < s.params.ibufDepth.val →
      (∃ t, takeMove (.ibufWrite a b) s = .next t ∧ t = { s with ibuf := t.ibuf } ∧
        ∀ k, readIbuf t k = if k = a then b else readIbuf s k) ∧
      takeMove (.ibufRead a) s = .next { s with lastRead := (readIbuf s a).setWidth 40 }) ∧
    (s.params.ibufDepth.val ≤ a → takeMove (.ibufWrite a b) s = .next s) ∧
    (a < s.params.obufDepth.val →
      takeMove (.obufRead a) s = .next { s with lastRead := (readObuf s a).setWidth 40 }) ∧
    (a < s.params.gridDepth.val →
      (∃ t, takeMove (.gridWrite a w) s = .next t ∧ t = { s with grid := t.grid } ∧
        ∀ k, readGrid t k =
          if k = a then ⟨w.extractLsb' 24 8, w.extractLsb' 16 8, w.extractLsb' 8 8, w.extractLsb' 0 8⟩
          else readGrid s k) ∧
      ∃ t, takeMove (.gridRead a) s = .next t ∧ t = { s with lastRead := t.lastRead } ∧
        t.lastRead.toNat = (readGrid s a).r.toNat * 2 ^ 24 + (readGrid s a).g.toNat * 2 ^ 16 +
          (readGrid s a).b.toNat * 2 ^ 8 + (readGrid s a).a.toNat) ∧
    (s.params.gridDepth.val ≤ a → takeMove (.gridWrite a w) s = .next s)

/-- R74: no read of the host has a side effect on the block: at most the value the host got and the count of free values
(the model's own fields, log entries 6 and 7) change, and with the block idle the same read again gives the same value:
of any register number, and of an entry below the depth of its own memory. -/
def Obligations.ReadsHaveNoSideEffect : Prop :=
  ∀ (s t : State) (m : HostMove) (a : Nat),
    m ∈ [HostMove.regRead a, .ibufRead a, .obufRead a, .gridRead a] → takeMove m s = .next t →
    t = { s with lastRead := t.lastRead, freeDraw := t.freeDraw } ∧
    (s.busy = false →
      m = .regRead a ∨ (m = .ibufRead a ∧ a < s.params.ibufDepth.val) ∨
        (m = .obufRead a ∧ a < s.params.obufDepth.val) ∨ (m = .gridRead a ∧ a < s.params.gridDepth.val) →
      takeMove m t = .next t)

/-! ### Reset -/

/-- R39 and R235: the reset state with any depths, and what the reset input does to an idle block. That an entry nobody
has written reads as a free value of its own (U5) is log entry 4, that the depths stand in the state is log entry 5, and
that the reset input keeps the memories' contents and the model's own fields is log entry 10. -/
def Obligations.ResetLeavesResetValues : Prop :=
  (∀ p : Params,
    let s := State.resetWith p
    s.nbits = 4 ∧ s.width = 0 ∧ s.height = 0 ∧ s.srcLen = 0 ∧ s.dstLen = 0 ∧ s.dIn = 0 ∧ s.dOut = 0 ∧ s.widx = 0 ∧
    s.busy = false ∧ s.done = false ∧ s.err = false ∧ s.errcode = 0 ∧
    cursorColumn s = 0 ∧ cursorRow s = 0 ∧ s.widx.toNat % 3 = 0 ∧ wvalid s = false ∧ s.params = p ∧
    ∀ k, readIbuf s k = Config.unwrittenIbuf k ∧ readObuf s k = Config.unwrittenObuf k ∧
      readGrid s k = pixelOfWord (Config.unwrittenPixel k)) ∧
  ∀ s : State, s.busy = false →
    ∃ t, takeMove .reset s = .next t ∧ t = { s with
      nbits := 4, width := 0, height := 0, srcLen := 0, dstLen := 0, dIn := 0, dOut := 0, widx := 0,
      done := false, err := false, errcode := 0, runningOp := t.runningOp }

/-- R236: reset while a command runs gives the reset registers; each OBUF entry, and each field of each pixel, then reads
as before or as the abandoned command would have left it, and IBUF is unchanged. The choice is free (log entry 8); that
the model's own fields stay is log entry 10. -/
def Obligations.ResetAbandonsRunningCommand : Prop :=
  ∀ s t : State, s.busy = true → takeMove .wait s = .next t →
    ∃ u, takeMove .reset s = .next u ∧
      u = { s with
        nbits := 4, width := 0, height := 0, srcLen := 0, dstLen := 0, dIn := 0, dOut := 0, widx := 0,
        busy := false, done := false, err := false, errcode := 0, runningOp := u.runningOp,
        obuf := u.obuf, grid := u.grid, freeDraw := u.freeDraw } ∧
      (∀ k, readObuf u k = readObuf s k ∨ readObuf u k = readObuf t k) ∧
      ∀ p, ((readGrid u p).r = (readGrid s p).r ∨ (readGrid u p).r = (readGrid t p).r) ∧
        ((readGrid u p).g = (readGrid s p).g ∨ (readGrid u p).g = (readGrid t p).g) ∧
        ((readGrid u p).b = (readGrid s p).b ∨ (readGrid u p).b = (readGrid t p).b) ∧
        ((readGrid u p).a = (readGrid s p).a ∨ (readGrid u p).a = (readGrid t p).a)

/-! ### Invariants -/

/-- Every invariant below holds right after reset, whatever the depths. -/
def Obligations.ResetMeetsInvariants : Prop :=
  (∀ p : Params, memoriesOk (State.resetWith p) ∧ cursorOk (State.resetWith p) ∧ flagsOk (State.resetWith p) ∧
    runningOk (State.resetWith p)) ∧
  memoriesOk State.reset ∧ cursorOk State.reset ∧ flagsOk State.reset ∧ runningOk State.reset

/-- Every step keeps the three memories in canonical form and below their depths, and keeps the depths (R7,
R60, R76). The form of the lists is the model's choice (log entry 4). -/
def Obligations.StepKeepsMemoriesCanonical : Prop :=
  ∀ s t : State, memoriesOk s → step s = .next t → memoriesOk t ∧ t.params = s.params

/-- R30: the cursor "never wraps and never exceeds 3 × HEIGHT × WIDTH", along every step. -/
def Obligations.StepKeepsCursorInGrid : Prop :=
  ∀ s t : State, cursorOk s → step s = .next t → cursorOk t

/-- R23 and R32: DONE and ERR are never both 1, ERRCODE is nonzero exactly when ERR = 1, and only an accepted command
runs, along every step. -/
def Obligations.StepKeepsFlagsConsistent : Prop :=
  ∀ s t : State, flagsOk s → runningOk s → step s = .next t → flagsOk t ∧ runningOk t
end

