-- ==== Sys2Proof/Laws/State.lean ====
section
/-! SUPPORT. One lemma per field of State and per update of it, so that no later proof unfolds a record update; and what
acceptance of a command leaves of the functions that read a state. -/

namespace Sys2Proof.Machine

/-! ### accept -/

@[simp] theorem accept_nbits (s : State) : (accept s).nbits = s.nbits := rfl
@[simp] theorem accept_width (s : State) : (accept s).width = s.width := rfl
@[simp] theorem accept_height (s : State) : (accept s).height = s.height := rfl
@[simp] theorem accept_srcLen (s : State) : (accept s).srcLen = s.srcLen := rfl
@[simp] theorem accept_dstLen (s : State) : (accept s).dstLen = s.dstLen := rfl
@[simp] theorem accept_dIn (s : State) : (accept s).dIn = s.dIn := rfl
@[simp] theorem accept_dOut (s : State) : (accept s).dOut = s.dOut := rfl
@[simp] theorem accept_widx (s : State) : (accept s).widx = s.widx := rfl
@[simp] theorem accept_busy (s : State) : (accept s).busy = true := rfl
@[simp] theorem accept_done (s : State) : (accept s).done = false := rfl
@[simp] theorem accept_err (s : State) : (accept s).err = s.err := rfl
@[simp] theorem accept_errcode (s : State) : (accept s).errcode = s.errcode := rfl
@[simp] theorem accept_ibuf (s : State) : (accept s).ibuf = s.ibuf := rfl
@[simp] theorem accept_obuf (s : State) : (accept s).obuf = s.obuf := rfl
@[simp] theorem accept_grid (s : State) : (accept s).grid = s.grid := rfl
@[simp] theorem accept_params (s : State) : (accept s).params = s.params := rfl
@[simp] theorem accept_moves (s : State) : (accept s).moves = s.moves := rfl
@[simp] theorem accept_runningOp (s : State) : (accept s).runningOp = s.runningOp := rfl
@[simp] theorem accept_lastRead (s : State) : (accept s).lastRead = s.lastRead := rfl
@[simp] theorem accept_freeDraw (s : State) : (accept s).freeDraw = s.freeDraw := rfl

/-! ### complete -/

@[simp] theorem complete_nbits (s : State) : (complete s).nbits = s.nbits := rfl
@[simp] theorem complete_width (s : State) : (complete s).width = s.width := rfl
@[simp] theorem complete_height (s : State) : (complete s).height = s.height := rfl
@[simp] theorem complete_srcLen (s : State) : (complete s).srcLen = s.srcLen := rfl
@[simp] theorem complete_dstLen (s : State) : (complete s).dstLen = s.dstLen := rfl
@[simp] theorem complete_dIn (s : State) : (complete s).dIn = s.dIn := rfl
@[simp] theorem complete_dOut (s : State) : (complete s).dOut = s.dOut := rfl
@[simp] theorem complete_widx (s : State) : (complete s).widx = s.widx := rfl
@[simp] theorem complete_busy (s : State) : (complete s).busy = false := rfl
@[simp] theorem complete_done (s : State) : (complete s).done = true := rfl
@[simp] theorem complete_err (s : State) : (complete s).err = s.err := rfl
@[simp] theorem complete_errcode (s : State) : (complete s).errcode = s.errcode := rfl
@[simp] theorem complete_ibuf (s : State) : (complete s).ibuf = s.ibuf := rfl
@[simp] theorem complete_obuf (s : State) : (complete s).obuf = s.obuf := rfl
@[simp] theorem complete_grid (s : State) : (complete s).grid = s.grid := rfl
@[simp] theorem complete_params (s : State) : (complete s).params = s.params := rfl
@[simp] theorem complete_moves (s : State) : (complete s).moves = s.moves := rfl
@[simp] theorem complete_runningOp (s : State) : (complete s).runningOp = s.runningOp := rfl
@[simp] theorem complete_lastRead (s : State) : (complete s).lastRead = s.lastRead := rfl
@[simp] theorem complete_freeDraw (s : State) : (complete s).freeDraw = s.freeDraw := rfl

/-! ### raiseError -/

@[simp] theorem raiseError_nbits (e : ErrorKind) (s : State) : (raiseError e s).nbits = s.nbits := rfl
@[simp] theorem raiseError_width (e : ErrorKind) (s : State) : (raiseError e s).width = s.width := rfl
@[simp] theorem raiseError_height (e : ErrorKind) (s : State) : (raiseError e s).height = s.height := rfl
@[simp] theorem raiseError_srcLen (e : ErrorKind) (s : State) : (raiseError e s).srcLen = s.srcLen := rfl
@[simp] theorem raiseError_dstLen (e : ErrorKind) (s : State) : (raiseError e s).dstLen = s.dstLen := rfl
@[simp] theorem raiseError_dIn (e : ErrorKind) (s : State) : (raiseError e s).dIn = s.dIn := rfl
@[simp] theorem raiseError_dOut (e : ErrorKind) (s : State) : (raiseError e s).dOut = s.dOut := rfl
@[simp] theorem raiseError_widx (e : ErrorKind) (s : State) : (raiseError e s).widx = s.widx := rfl
@[simp] theorem raiseError_busy (e : ErrorKind) (s : State) : (raiseError e s).busy = false := rfl
@[simp] theorem raiseError_done (e : ErrorKind) (s : State) : (raiseError e s).done = false := rfl
@[simp] theorem raiseError_err (e : ErrorKind) (s : State) : (raiseError e s).err = true := rfl
@[simp] theorem raiseError_errcode (e : ErrorKind) (s : State) : (raiseError e s).errcode = errorCode e := rfl
@[simp] theorem raiseError_ibuf (e : ErrorKind) (s : State) : (raiseError e s).ibuf = s.ibuf := rfl
@[simp] theorem raiseError_obuf (e : ErrorKind) (s : State) : (raiseError e s).obuf = s.obuf := rfl
@[simp] theorem raiseError_grid (e : ErrorKind) (s : State) : (raiseError e s).grid = s.grid := rfl
@[simp] theorem raiseError_params (e : ErrorKind) (s : State) : (raiseError e s).params = s.params := rfl
@[simp] theorem raiseError_moves (e : ErrorKind) (s : State) : (raiseError e s).moves = s.moves := rfl
@[simp] theorem raiseError_runningOp (e : ErrorKind) (s : State) : (raiseError e s).runningOp = s.runningOp := rfl
@[simp] theorem raiseError_lastRead (e : ErrorKind) (s : State) : (raiseError e s).lastRead = s.lastRead := rfl
@[simp] theorem raiseError_freeDraw (e : ErrorKind) (s : State) : (raiseError e s).freeDraw = s.freeDraw := rfl

/-! ### clearError -/

@[simp] theorem clearError_nbits (s : State) : (clearError s).nbits = s.nbits := rfl
@[simp] theorem clearError_width (s : State) : (clearError s).width = s.width := rfl
@[simp] theorem clearError_height (s : State) : (clearError s).height = s.height := rfl
@[simp] theorem clearError_srcLen (s : State) : (clearError s).srcLen = s.srcLen := rfl
@[simp] theorem clearError_dstLen (s : State) : (clearError s).dstLen = s.dstLen := rfl
@[simp] theorem clearError_dIn (s : State) : (clearError s).dIn = s.dIn := rfl
@[simp] theorem clearError_dOut (s : State) : (clearError s).dOut = s.dOut := rfl
@[simp] theorem clearError_widx (s : State) : (clearError s).widx = s.widx := rfl
@[simp] theorem clearError_busy (s : State) : (clearError s).busy = s.busy := rfl
@[simp] theorem clearError_done (s : State) : (clearError s).done = s.done := rfl
@[simp] theorem clearError_err (s : State) : (clearError s).err = false := rfl
@[simp] theorem clearError_errcode (s : State) : (clearError s).errcode = 0 := rfl
@[simp] theorem clearError_ibuf (s : State) : (clearError s).ibuf = s.ibuf := rfl
@[simp] theorem clearError_obuf (s : State) : (clearError s).obuf = s.obuf := rfl
@[simp] theorem clearError_grid (s : State) : (clearError s).grid = s.grid := rfl
@[simp] theorem clearError_params (s : State) : (clearError s).params = s.params := rfl
@[simp] theorem clearError_moves (s : State) : (clearError s).moves = s.moves := rfl
@[simp] theorem clearError_runningOp (s : State) : (clearError s).runningOp = s.runningOp := rfl
@[simp] theorem clearError_lastRead (s : State) : (clearError s).lastRead = s.lastRead := rfl
@[simp] theorem clearError_freeDraw (s : State) : (clearError s).freeDraw = s.freeDraw := rfl

/-! ### produce -/

@[simp] theorem produce_nbits (out : List Byte) (s : State) : (produce out s).nbits = s.nbits := rfl
@[simp] theorem produce_width (out : List Byte) (s : State) : (produce out s).width = s.width := rfl
@[simp] theorem produce_height (out : List Byte) (s : State) : (produce out s).height = s.height := rfl
@[simp] theorem produce_srcLen (out : List Byte) (s : State) : (produce out s).srcLen = s.srcLen := rfl
@[simp] theorem produce_dstLen (out : List Byte) (s : State) : (produce out s).dstLen = BitVec.ofNat 40 out.length := rfl
@[simp] theorem produce_dIn (out : List Byte) (s : State) : (produce out s).dIn = s.dIn := rfl
@[simp] theorem produce_dOut (out : List Byte) (s : State) : (produce out s).dOut = s.dOut := rfl
@[simp] theorem produce_widx (out : List Byte) (s : State) : (produce out s).widx = s.widx := rfl
@[simp] theorem produce_busy (out : List Byte) (s : State) : (produce out s).busy = s.busy := rfl
@[simp] theorem produce_done (out : List Byte) (s : State) : (produce out s).done = s.done := rfl
@[simp] theorem produce_err (out : List Byte) (s : State) : (produce out s).err = s.err := rfl
@[simp] theorem produce_errcode (out : List Byte) (s : State) : (produce out s).errcode = s.errcode := rfl
@[simp] theorem produce_ibuf (out : List Byte) (s : State) : (produce out s).ibuf = s.ibuf := rfl
@[simp] theorem produce_obuf (out : List Byte) (s : State) : (produce out s).obuf = Memory.setSeq s.obuf 0 out := rfl
@[simp] theorem produce_grid (out : List Byte) (s : State) : (produce out s).grid = s.grid := rfl
@[simp] theorem produce_params (out : List Byte) (s : State) : (produce out s).params = s.params := rfl
@[simp] theorem produce_moves (out : List Byte) (s : State) : (produce out s).moves = s.moves := rfl
@[simp] theorem produce_runningOp (out : List Byte) (s : State) : (produce out s).runningOp = s.runningOp := rfl
@[simp] theorem produce_lastRead (out : List Byte) (s : State) : (produce out s).lastRead = s.lastRead := rfl
@[simp] theorem produce_freeDraw (out : List Byte) (s : State) : (produce out s).freeDraw = s.freeDraw := rfl

/-! ### setCursor -/

@[simp] theorem setCursor_nbits (i : Nat) (s : State) : (setCursor i s).nbits = s.nbits := rfl
@[simp] theorem setCursor_width (i : Nat) (s : State) : (setCursor i s).width = s.width := rfl
@[simp] theorem setCursor_height (i : Nat) (s : State) : (setCursor i s).height = s.height := rfl
@[simp] theorem setCursor_srcLen (i : Nat) (s : State) : (setCursor i s).srcLen = s.srcLen := rfl
@[simp] theorem setCursor_dstLen (i : Nat) (s : State) : (setCursor i s).dstLen = s.dstLen := rfl
@[simp] theorem setCursor_dIn (i : Nat) (s : State) : (setCursor i s).dIn = s.dIn := rfl
@[simp] theorem setCursor_dOut (i : Nat) (s : State) : (setCursor i s).dOut = s.dOut := rfl
@[simp] theorem setCursor_widx (i : Nat) (s : State) : (setCursor i s).widx = BitVec.ofNat 40 i := rfl
@[simp] theorem setCursor_busy (i : Nat) (s : State) : (setCursor i s).busy = s.busy := rfl
@[simp] theorem setCursor_done (i : Nat) (s : State) : (setCursor i s).done = s.done := rfl
@[simp] theorem setCursor_err (i : Nat) (s : State) : (setCursor i s).err = s.err := rfl
@[simp] theorem setCursor_errcode (i : Nat) (s : State) : (setCursor i s).errcode = s.errcode := rfl
@[simp] theorem setCursor_ibuf (i : Nat) (s : State) : (setCursor i s).ibuf = s.ibuf := rfl
@[simp] theorem setCursor_obuf (i : Nat) (s : State) : (setCursor i s).obuf = s.obuf := rfl
@[simp] theorem setCursor_grid (i : Nat) (s : State) : (setCursor i s).grid = s.grid := rfl
@[simp] theorem setCursor_params (i : Nat) (s : State) : (setCursor i s).params = s.params := rfl
@[simp] theorem setCursor_moves (i : Nat) (s : State) : (setCursor i s).moves = s.moves := rfl
@[simp] theorem setCursor_runningOp (i : Nat) (s : State) : (setCursor i s).runningOp = s.runningOp := rfl
@[simp] theorem setCursor_lastRead (i : Nat) (s : State) : (setCursor i s).lastRead = s.lastRead := rfl
@[simp] theorem setCursor_freeDraw (i : Nat) (s : State) : (setCursor i s).freeDraw = s.freeDraw := rfl

/-! ### resetRegisters -/

@[simp] theorem resetRegisters_nbits (s : State) : (resetRegisters s).nbits = 4 := rfl
@[simp] theorem resetRegisters_width (s : State) : (resetRegisters s).width = 0 := rfl
@[simp] theorem resetRegisters_height (s : State) : (resetRegisters s).height = 0 := rfl
@[simp] theorem resetRegisters_srcLen (s : State) : (resetRegisters s).srcLen = 0 := rfl
@[simp] theorem resetRegisters_dstLen (s : State) : (resetRegisters s).dstLen = 0 := rfl
@[simp] theorem resetRegisters_dIn (s : State) : (resetRegisters s).dIn = 0 := rfl
@[simp] theorem resetRegisters_dOut (s : State) : (resetRegisters s).dOut = 0 := rfl
@[simp] theorem resetRegisters_widx (s : State) : (resetRegisters s).widx = 0 := rfl
@[simp] theorem resetRegisters_busy (s : State) : (resetRegisters s).busy = false := rfl
@[simp] theorem resetRegisters_done (s : State) : (resetRegisters s).done = false := rfl
@[simp] theorem resetRegisters_err (s : State) : (resetRegisters s).err = false := rfl
@[simp] theorem resetRegisters_errcode (s : State) : (resetRegisters s).errcode = 0 := rfl
@[simp] theorem resetRegisters_ibuf (s : State) : (resetRegisters s).ibuf = s.ibuf := rfl
@[simp] theorem resetRegisters_obuf (s : State) : (resetRegisters s).obuf = s.obuf := rfl
@[simp] theorem resetRegisters_grid (s : State) : (resetRegisters s).grid = s.grid := rfl
@[simp] theorem resetRegisters_params (s : State) : (resetRegisters s).params = s.params := rfl
@[simp] theorem resetRegisters_moves (s : State) : (resetRegisters s).moves = s.moves := rfl
@[simp] theorem resetRegisters_runningOp (s : State) : (resetRegisters s).runningOp = 0 := rfl
@[simp] theorem resetRegisters_lastRead (s : State) : (resetRegisters s).lastRead = s.lastRead := rfl
@[simp] theorem resetRegisters_freeDraw (s : State) : (resetRegisters s).freeDraw = s.freeDraw := rfl
/-! ### Acceptance changes nothing a command reads -/

@[simp] theorem pixelCount_accept (s : State) : pixelCount (accept s) = pixelCount s := rfl
@[simp] theorem channelCount_accept (s : State) : channelCount (accept s) = channelCount s := rfl
@[simp] theorem wvalid_accept (s : State) : wvalid (accept s) = wvalid s := rfl
@[simp] theorem nOf_accept (s : State) : nOf (accept s) = nOf s := rfl
@[simp] theorem readIbuf_accept (s : State) : readIbuf (accept s) = readIbuf s := rfl
@[simp] theorem readGrid_accept (s : State) : readGrid (accept s) = readGrid s := rfl
@[simp] theorem inputSeq_accept (s : State) (n : Nat) : inputSeq (accept s) n = inputSeq s n := rfl
@[simp] theorem inputBits_accept (s : State) (n : Nat) : inputBits (accept s) n = inputBits s n := rfl
@[simp] theorem cursorFits_accept (s : State) : cursorFits (accept s) = cursorFits s := rfl
@[simp] theorem gridFits_accept (s : State) : gridFits (accept s) = gridFits s := rfl
@[simp] theorem inputFits_accept (s : State) : inputFits (accept s) = inputFits s := rfl
@[simp] theorem outputFits_accept (s : State) (n : Nat) : outputFits (accept s) n = outputFits s n := rfl

end Sys2Proof.Machine
end

