-- ==== Sys2Proof/Laws/Gate.lean ====
section
/-! SUPPORT. What the command gate can do, said once; exec as the gate over each command's rule; what each rule answers. -/

namespace Sys2Proof.Machine

theorem complete_accept (s : State) : complete (accept s) = { s with done := true, busy := false } := rfl

theorem raiseError_accept (e : ErrorKind) (s : State) :
    raiseError e (accept s) = { s with done := false, err := true, errcode := errorCode e, busy := false } := rfl

/-! ### The gate -/

theorem gate_of_busy {s : State} (h : s.busy = true) (c : Bool) (rule : State → Except ErrorKind State) :
    gate c rule s = .next s := by simp [gate, h]

theorem gate_of_err {s : State} (h : s.err = true) (rule : State → Except ErrorKind State) :
    gate false rule s = .next s := by simp [gate, h]

/-- The gate accepts a command: idle, and no error recorded unless the command clears it. -/
abbrev passes (c : Bool) (s : State) : Prop := s.busy = false ∧ (s.err = true → c = true)

theorem gate_of_passes {s : State} {c : Bool} (h : passes c s) (rule : State → Except ErrorKind State) :
    gate c rule s =
      match rule (accept s) with
      | .ok t => .next (complete t)
      | .error e => .next (raiseError e (accept s)) := by
  obtain ⟨hb, he⟩ := h
  have hg : ¬((s.err && !c) = true) := by cases c <;> simp_all
  refine ((if_neg (by simp [hb])).trans (if_neg hg)).trans ?_
  cases rule (accept s) <;> rfl

theorem gate_of_ready_ok {s t : State} {c : Bool} (h : passes c s) {rule : State → Except ErrorKind State}
    (hr : rule (accept s) = .ok t) : gate c rule s = .next (complete t) := by
  rw [gate_of_passes h, hr]

theorem gate_of_ready_error {s : State} {c : Bool} {e : ErrorKind} (h : passes c s)
    {rule : State → Except ErrorKind State} (hr : rule (accept s) = .error e) :
    gate c rule s = .next (raiseError e (accept s)) := by
  rw [gate_of_passes h, hr]

/-- Everything the gate can answer: the write is ignored, the command completes, or it fails. -/
theorem gate_cases {c : Bool} {rule : State → Except ErrorKind State} {s t : State}
    (h : gate c rule s = .next t) :
    (¬passes c s ∧ t = s) ∨
    (passes c s ∧ ∃ u, rule (accept s) = .ok u ∧ t = complete u) ∨
    (passes c s ∧ ∃ e, rule (accept s) = .error e ∧ t = raiseError e (accept s)) := by
  by_cases hp : passes c s
  · rw [gate_of_passes hp] at h
    split at h
    · next u hu => cases h; exact .inr (.inl ⟨hp, u, hu, rfl⟩)
    · next e he => cases h; exact .inr (.inr ⟨hp, e, he, rfl⟩)
  · refine .inl ⟨hp, ?_⟩
    by_cases hb : s.busy = true
    · rw [gate_of_busy hb] at h; cases h; rfl
    · have hb' : s.busy = false := by simpa using hb
      have : s.err = true ∧ c = false := by
        by_contra hc
        exact hp ⟨hb', fun he => by cases c <;> simp_all⟩
      obtain ⟨he, rfl⟩ := this
      rw [gate_of_err he] at h; cases h; rfl

/-- The gate always answers a next state. -/
theorem gate_answers (c : Bool) (rule : State → Except ErrorKind State) (s : State) :
    ∃ t, gate c rule s = .next t := by
  unfold gate
  split
  · exact ⟨_, rfl⟩
  · split
    · exact ⟨_, rfl⟩
    · split <;> exact ⟨_, rfl⟩

/-! ### exec as the gate over a rule -/

/-- The rule each command runs when it is accepted. -/
def ruleOf : Instr → State → Except ErrorKind State
  | .nop => fun t => .ok t
  | .tobits => tobitsRule
  | .frombits => frombitsRule
  | .group => groupRule
  | .ungroup => ungroupRule
  | .embed => embedRule
  | .extract => extractRule
  | .wreset => wresetRule
  | .wnext => wnextRule
  | .encode => encodeRule
  | .decode => decodeRule
  | .clrerr => fun t => .ok (clearError t)

/-- Only CLRERR is accepted while an error is recorded. -/
def clears : Instr → Bool
  | .clrerr => true
  | _ => false

theorem exec_eq_gate (i : Instr) (s : State) : exec i s = gate (clears i) (ruleOf i) s := by
  cases i <;> rfl

theorem exec_answers (i : Instr) (s : State) : ∃ t, exec i s = .next t := by
  rw [exec_eq_gate]; exact gate_answers _ _ _

/-! ### What each rule answers -/

theorem ite_ok_iff {c : Bool} {a t : State} {e : ErrorKind} :
    (if c = true then Except.ok a else Except.error e) = Except.ok t ↔ c = true ∧ t = a := by
  cases c
  · simp
  · simp only [if_true, Except.ok.injEq, true_and]; exact eq_comm

theorem ite_config_iff {c : Bool} {r : Except ErrorKind State} {t : State} {e : ErrorKind} :
    (if (!c) = true then Except.error e else r) = Except.ok t ↔ c = true ∧ r = Except.ok t := by
  cases c <;> simp

theorem tobitsRule_ok {s t : State} : tobitsRule s = .ok t ↔
    (inputFits s && outputFits s (8 * s.srcLen.toNat)) = true ∧
      t = produce ((toBits (inputSeq s s.srcLen.toNat)).map bitByte) s := ite_ok_iff

theorem frombitsRule_ok {s t : State} : frombitsRule s = .ok t ↔
    (inputFits s && outputFits s (s.srcLen.toNat / 8)) = true ∧
      t = produce (fromBits (inputBits s s.srcLen.toNat)) s := ite_ok_iff

theorem groupRule_ok {s t : State} : groupRule s = .ok t ↔
    validN (nOf s) = true ∧ (inputFits s && outputFits s (ceilDiv s.srcLen.toNat (nOf s))) = true ∧
      t = produce (group (inputBits s s.srcLen.toNat) (nOf s)) s :=
  ite_config_iff.trans (and_congr_right fun _ => ite_ok_iff)

theorem ungroupRule_ok {s t : State} : ungroupRule s = .ok t ↔
    validN (nOf s) = true ∧ (inputFits s && outputFits s (nOf s * s.srcLen.toNat)) = true ∧
      t = produce ((ungroup (inputSeq s s.srcLen.toNat) (nOf s)).map bitByte) s :=
  ite_config_iff.trans (and_congr_right fun _ => ite_ok_iff)

theorem embedRule_ok {s t : State} : embedRule s = .ok t ↔
    validN (nOf s) = true ∧ cursorFits s = true ∧
      t = { s with grid := embedAt s.grid s.widx.toNat (s.dIn &&& loMask (nOf s)) (nOf s) } :=
  ite_config_iff.trans (and_congr_right fun _ => ite_ok_iff)

theorem extractRule_ok {s t : State} : extractRule s = .ok t ↔
    validN (nOf s) = true ∧ cursorFits s = true ∧
      t = { s with dOut := extract (chan (readGrid s (pixelOf s.widx.toNat)) (channelOf s.widx.toNat)) (nOf s) } :=
  ite_config_iff.trans (and_congr_right fun _ => ite_ok_iff)

theorem wresetRule_ok {s t : State} : wresetRule s = .ok t ↔ t = setCursor 0 s := by
  unfold wresetRule; rw [Except.ok.injEq]; exact eq_comm

theorem wnextRule_ok {s t : State} : wnextRule s = .ok t ↔
    t = if wvalid s then setCursor (s.widx.toNat + 1) s else s := by
  unfold wnextRule; split <;> (rw [Except.ok.injEq]; exact eq_comm)

theorem encodeRule_ok {s t : State} : encodeRule s = .ok t ↔
    validN (nOf s) = true ∧ (inputFits s && gridFits s) = true ∧
      ∃ dv, dv = messageValues (inputSeq s s.srcLen.toNat) (nOf s) ∧
        t = setCursor (channelCount s) { s with grid := embedAll s.grid dv (nOf s) (channelCount s) } :=
  ite_config_iff.trans (and_congr_right fun _ => ite_ok_iff.trans (and_congr_right fun _ =>
    ⟨fun h => ⟨_, rfl, h⟩, fun ⟨_, hd, h⟩ => hd ▸ h⟩))

theorem decodeRule_ok {s t : State} : decodeRule s = .ok t ↔
    validN (nOf s) = true ∧ (gridFits s && outputFits s (decodedLength s)) = true ∧
      ∃ dv, dv = gridValues s.grid (nOf s) (channelCount s) ∧
        t = setCursor (channelCount s) (produce (fromBits (ungroup dv (nOf s))) s) :=
  ite_config_iff.trans (and_congr_right fun _ => ite_ok_iff.trans (and_congr_right fun _ =>
    ⟨fun h => ⟨_, rfl, h⟩, fun ⟨_, hd, h⟩ => hd ▸ h⟩))

end Sys2Proof.Machine
end

