-- ==== Sys2Proof/Laws/Memory.lean ====
section
/-! SUPPORT. What the memory operations do: reading back what was written, and keeping the canonical form. -/

namespace Sys2Proof.Machine

variable {α : Type}

/-! ### Reading -/

@[simp] theorem Memory.get?_nil (k : Nat) : Memory.get? ([] : Memory α) k = none := rfl

theorem Memory.get?_set_self (m : Memory α) (k : Nat) (v : α) : Memory.get? (Memory.set m k v) k = some v := by
  induction m with
  | nil => simp [Memory.set, Memory.get?]
  | cons x m ih =>
    obtain ⟨a, w⟩ := x
    simp only [Memory.set]
    split
    · simp [Memory.get?]
    · split
      · simp [Memory.get?]
      · next h => simp [Memory.get?, ih, Ne.symm h]

theorem Memory.get?_set_of_ne (m : Memory α) {k a : Nat} (v : α) (h : a ≠ k) :
    Memory.get? (Memory.set m k v) a = Memory.get? m a := by
  induction m with
  | nil => simp [Memory.set, Memory.get?, Ne.symm h]
  | cons x m ih =>
    obtain ⟨b, w⟩ := x
    simp only [Memory.set]
    split
    · simp [Memory.get?, Ne.symm h]
    · split
      · next hk => subst hk; simp [Memory.get?, Ne.symm h]
      · simp [Memory.get?, ih]

/-- A read after a write gives the value written at its entry, and what stood there before anywhere else. -/
theorem Memory.get?_set (m : Memory α) (k a : Nat) (v : α) :
    Memory.get? (Memory.set m k v) a = if a = k then some v else Memory.get? m a := by
  split
  · next h => subst h; exact Memory.get?_set_self m a v
  · next h => exact Memory.get?_set_of_ne m v h

/-- Everything `setSeq` can do to a later read: inside the written range the element, outside it what stood there. -/
theorem Memory.get?_setSeq (vs : List α) (m : Memory α) (k a : Nat) :
    Memory.get? (Memory.setSeq m k vs) a =
      if k ≤ a ∧ a < k + vs.length then vs[a - k]? else Memory.get? m a := by
  induction vs generalizing m k with
  | nil => simp [Memory.setSeq]
  | cons v vs ih =>
    rw [Memory.setSeq, ih, Memory.get?_set]
    by_cases h : a = k
    · subst h; simp
    · by_cases h1 : k + 1 ≤ a ∧ a < k + 1 + vs.length
      · have h2 : k ≤ a ∧ a < k + (v :: vs).length := by simp; omega
        obtain ⟨d, hd⟩ : ∃ d, a - k = d + 1 := ⟨a - k - 1, by omega⟩
        have h3 : a - (k + 1) = d := by omega
        rw [if_pos h1, if_pos h2, hd, h3, List.getElem?_cons_succ]
      · have h2 : ¬(k ≤ a ∧ a < k + (v :: vs).length) := by simp; omega
        simp only [h1, h2, h, if_false]

/-! ### The canonical form -/

theorem Memory.wf_nil (depth : Nat) : Memory.wf depth ([] : Memory α) :=
  ⟨List.Pairwise.nil, fun _ h => (List.not_mem_nil h).elim⟩

/-- An entry of a memory after a write is the written one or one that stood there before. -/
theorem Memory.mem_set {m : Memory α} {k : Nat} {v : α} {x : Nat × α} (h : x ∈ Memory.set m k v) :
    x = (k, v) ∨ x ∈ m := by
  induction m with
  | nil => simpa [Memory.set] using h
  | cons y m ih =>
    obtain ⟨a, w⟩ := y
    simp only [Memory.set] at h
    split at h
    · simpa using h
    · split at h
      · rcases List.mem_cons.1 h with h | h
        · exact .inl h
        · exact .inr (List.mem_cons_of_mem _ h)
      · rcases List.mem_cons.1 h with h | h
        · exact .inr (h ▸ List.mem_cons_self)
        · exact (ih h).imp id (List.mem_cons_of_mem _)

theorem Memory.pairwise_set {m : Memory α} (h : m.Pairwise (fun x y => x.1 < y.1)) (k : Nat) (v : α) :
    (Memory.set m k v).Pairwise (fun x y => x.1 < y.1) := by
  induction m with
  | nil => simp [Memory.set]
  | cons y m ih =>
    obtain ⟨a, w⟩ := y
    have ⟨hy, hm⟩ := List.pairwise_cons.1 h
    simp only [Memory.set]
    split
    · next hk =>
      refine List.pairwise_cons.2 ⟨fun z hz => ?_, h⟩
      rcases List.mem_cons.1 hz with rfl | hz
      · exact hk
      · exact lt_trans hk (hy z hz)
    · split
      · next hk => subst hk; exact List.pairwise_cons.2 ⟨hy, hm⟩
      · next h1 h2 =>
        refine List.pairwise_cons.2 ⟨fun z hz => ?_, ih hm⟩
        rcases Memory.mem_set hz with rfl | hz
        · show a < k; omega
        · exact hy z hz

/-- A write below the depth keeps the canonical form. -/
theorem Memory.wf_set {depth : Nat} {m : Memory α} (h : Memory.wf depth m) {k : Nat} (hk : k < depth) (v : α) :
    Memory.wf depth (Memory.set m k v) :=
  ⟨Memory.pairwise_set h.1 k v, fun x hx => (Memory.mem_set hx).elim (fun e => e ▸ hk) (h.2 x)⟩

/-- Writing a sequence that ends at or below the depth keeps the canonical form. -/
theorem Memory.wf_setSeq {depth : Nat} (vs : List α) {m : Memory α} (h : Memory.wf depth m) {k : Nat}
    (hk : k + vs.length ≤ depth) : Memory.wf depth (Memory.setSeq m k vs) := by
  induction vs generalizing m k with
  | nil => exact h
  | cons v vs ih =>
    simp only [List.length_cons] at hk
    exact ih (Memory.wf_set h (by omega) v) (by omega)

/-- Two canonical memories with the same content are the same list. -/
theorem Memory.ext_of_pairwise {m n : Memory α} (hm : m.Pairwise (fun x y => x.1 < y.1))
    (hn : n.Pairwise (fun x y => x.1 < y.1)) (h : ∀ k, Memory.get? m k = Memory.get? n k) : m = n := by
  have below : ∀ (l : Memory α) (a : Nat), (∀ x ∈ l, a < x.1) → Memory.get? l a = none := by
    intro l a hl
    induction l with
    | nil => rfl
    | cons x l ih =>
      have hx := hl x List.mem_cons_self
      simp only [Memory.get?]
      rw [if_neg (by omega)]
      exact ih fun y hy => hl y (List.mem_cons_of_mem _ hy)
  induction m generalizing n with
  | nil =>
    cases n with
    | nil => rfl
    | cons y n => have := h y.1; simp [Memory.get?] at this
  | cons x m ih =>
    cases n with
    | nil => have := h x.1; simp [Memory.get?] at this
    | cons y n =>
      obtain ⟨a, v⟩ := x
      obtain ⟨b, w⟩ := y
      have ⟨hx, hm'⟩ := List.pairwise_cons.1 hm
      have ⟨hy, hn'⟩ := List.pairwise_cons.1 hn
      have hab : a = b := by
        rcases Nat.lt_trichotomy a b with hlt | heq | hgt
        · have h1 := h a
          rw [below ((b, w) :: n) a (fun z hz => by
            rcases List.mem_cons.1 hz with rfl | hz
            · exact hlt
            · exact lt_trans hlt (hy z hz))] at h1
          simp [Memory.get?] at h1
        · exact heq
        · have h1 := h b
          rw [below ((a, v) :: m) b (fun z hz => by
            rcases List.mem_cons.1 hz with rfl | hz
            · exact hgt
            · exact lt_trans hgt (hx z hz))] at h1
          simp [Memory.get?] at h1
      subst hab
      have hvw : v = w := by have := h a; simpa [Memory.get?] using this
      subst hvw
      rw [ih hm' hn' fun k => ?_]
      by_cases hk : a = k
      · subst hk; rw [below m a hx, below n a hy]
      · have := h k; simpa [Memory.get?, hk] using this

/-! ### Abandoned commands -/

/-- The entry numbers a memory lists, after `filterMap` by a function that keeps the entry number, are still rising and
below the depth. -/
theorem Memory.wf_filterMap {depth : Nat} {m : Memory α} (h : Memory.wf depth m)
    (f : Nat × α → Option (Nat × α)) (hf : ∀ x y, f x = some y → y.1 = x.1) :
    Memory.wf depth (m.filterMap f) := by
  refine ⟨?_, ?_⟩
  · refine List.pairwise_filterMap.2 (h.1.imp ?_)
    intro x y hxy u hu v hv
    rw [hf x u hu, hf y v hv]
    exact hxy
  · intro y hy
    obtain ⟨x, hx, hxy⟩ := List.mem_filterMap.1 hy
    rw [hf x y hxy]
    exact h.2 x hx

theorem mixBytes_wf {depth : Nat} (took : Nat → Bool) (old : Memory Byte) {new : Memory Byte}
    (h : Memory.wf depth new) : Memory.wf depth (mixBytes took old new) := by
  refine Memory.wf_filterMap h _ fun x y hxy => ?_
  split at hxy
  · cases hxy; rfl
  · obtain ⟨v, -, rfl⟩ := Option.map_eq_some_iff.1 hxy; rfl

theorem mixPixels_wf {depth : Nat} (took : Nat → Nat → Bool) (old : Memory Pixel) {new : Memory Pixel}
    (h : Memory.wf depth new) : Memory.wf depth (mixPixels took old new) := by
  refine Memory.wf_filterMap h _ fun x y hxy => ?_
  split at hxy
  · cases hxy; rfl
  · obtain ⟨v, -, rfl⟩ := Option.map_eq_some_iff.1 hxy; rfl

end Sys2Proof.Machine
end

