-- ==== Sys2Proof/Laws/Packing.lean ====
section
/-! SUPPORT. What the pure functions of the units do, element by element and bit by bit. -/

namespace Sys2Proof.Machine

/-! ### Lists cut into pieces of one length -/

theorem length_flatMap_of_length {α β : Type} {f : α → List β} {n : Nat} (h : ∀ a, (f a).length = n)
    (l : List α) : (l.flatMap f).length = n * l.length := by
  induction l with
  | nil => simp
  | cons a l ih => simp [ih, h, Nat.mul_add, Nat.add_comm]

/-- Element `n·k + j` of the pieces in a row is element `j` of piece `k`. -/
theorem getElem?_flatMap_of_length {α β : Type} {f : α → List β} {n : Nat} (h : ∀ a, (f a).length = n)
    (l : List α) {k j : Nat} (hj : j < n) :
    (l.flatMap f)[n * k + j]? = l[k]?.bind fun a => (f a)[j]? := by
  induction l generalizing k with
  | nil => simp
  | cons a l ih =>
    rw [List.flatMap_cons]
    cases k with
    | zero => rw [List.getElem?_append_left (by simp [h, hj])]; simp
    | succ k =>
      rw [List.getElem?_append_right (by simp [h, Nat.mul_add]; omega)]
      have : n * (k + 1) + j - (f a).length = n * k + j := by rw [h, Nat.mul_add]; omega
      rw [this, ih, List.getElem?_cons_succ]

/-! ### Bits of the packed values -/

theorem getLsbD_bitByte (b : Bool) (i : Nat) : (bitByte b).getLsbD i = (decide (i = 0) && b) := by
  cases b <;> by_cases h : i = 0 <;> simp [bitByte, h]

@[simp] theorem entryBit_bitByte (b : Bool) : entryBit (bitByte b) = b := by cases b <;> decide

theorem getLsbD_packBits_aux (n : Nat) (hn : n ≤ 8) (bit : Nat → Bool) (m : Nat) (hm : m ≤ n) (b : Nat) :
    ((List.range m).foldl (fun v j => v ||| (bitByte (bit j) <<< (n - 1 - j))) (0 : Byte)).getLsbD b =
      (decide (b < n ∧ n - 1 - b < m) && bit (n - 1 - b)) := by
  induction m with
  | zero => simp
  | succ m ih =>
    rw [List.range_succ, List.foldl_append, List.foldl_cons, List.foldl_nil, BitVec.getLsbD_or, ih (by omega),
      BitVec.getLsbD_shiftLeft, getLsbD_bitByte]
    by_cases h : b < n ∧ n - 1 - b = m
    · have hb : b - (n - 1 - m) = 0 := by omega
      have h1 : b < n ∧ n - 1 - b < m + 1 := by omega
      have h2 : ¬(b < n ∧ n - 1 - b < m) := by omega
      have h3 : b < 8 := by omega
      have h4 : ¬(b < n - 1 - m) := by omega
      simp [hb, h1, h3, h4, h.2]
    · by_cases h1 : b < n ∧ n - 1 - b < m
      · have h2 : b < n ∧ n - 1 - b < m + 1 := by omega
        have h3 : b - (n - 1 - m) ≠ 0 := by omega
        simp [h1, h3]
        omega
      · have h2 : ¬(b < n ∧ n - 1 - b < m + 1) := by omega
        simp only [h1, h2, decide_false, Bool.false_and, Bool.false_or]
        by_cases h4 : b < n - 1 - m
        · simp [h4]
        · have h3 : b - (n - 1 - m) ≠ 0 := by omega
          simp [h3]

/-- Bit `b` of a packed value of `n` bits is bit `n − 1 − b` of the sequence (R67). -/
theorem getLsbD_packBits {n : Nat} (hn : n ≤ 8) (bit : Nat → Bool) (b : Nat) :
    (packBits n bit).getLsbD b = (decide (b < n) && bit (n - 1 - b)) := by
  have h := getLsbD_packBits_aux n hn bit n (le_refl n) b
  rw [packBits, h]
  by_cases hb : b < n
  · have : b < n ∧ n - 1 - b < n := by omega
    simp [this]
  · have : ¬(b < n ∧ n - 1 - b < n) := by omega
    simp [hb]

/-! ### Lengths -/

@[simp] theorem length_toBits (bytes : List Byte) : (toBits bytes).length = 8 * bytes.length :=
  length_flatMap_of_length (by simp) bytes

@[simp] theorem length_fromBits (bits : List Bool) : (fromBits bits).length = bits.length / 8 := by simp [fromBits]

@[simp] theorem length_group (bits : List Bool) (n : Nat) : (group bits n).length = ceilDiv bits.length n := by
  simp [group]

@[simp] theorem length_ungroup (vals : List Byte) (n : Nat) : (ungroup vals n).length = n * vals.length :=
  length_flatMap_of_length (by simp) vals

@[simp] theorem length_inputSeq (s : State) (n : Nat) : (inputSeq s n).length = n := by simp [inputSeq]

@[simp] theorem length_inputBits (s : State) (n : Nat) : (inputBits s n).length = n := by simp [inputBits]

@[simp] theorem length_gridValues (m : Memory Pixel) (n count : Nat) : (gridValues m n count).length = count := by
  simp [gridValues]

/-! ### The four widths -/

/-- NBITS passes the N check exactly when N is 1, 2, 4 or 8. -/
theorem validN_iff (n : Nat) : validN n = true ↔ n = 1 ∨ n = 2 ∨ n = 4 ∨ n = 8 := by
  simp [validN, or_assoc]

theorem validN_pos {n : Nat} (h : validN n = true) : 0 < n ∧ n ≤ 8 := by
  rcases (validN_iff n).1 h with rfl | rfl | rfl | rfl <;> decide

theorem getLsbD_loMask {n : Nat} (h : validN n = true) (b : Nat) : (loMask n).getLsbD b = decide (b < n) := by
  by_cases hb : b < 8
  · rcases (validN_iff n).1 h with rfl | rfl | rfl | rfl <;> interval_cases b <;> decide
  · rw [BitVec.getLsbD_of_ge _ _ (by omega)]
    have := (validN_pos h).2
    simp; omega

theorem getLsbD_hiMask {n : Nat} (h : validN n = true) (b : Nat) :
    (hiMask n).getLsbD b = (decide (b < 8) && !decide (b < n)) := by
  by_cases hb : b < 8
  · rcases (validN_iff n).1 h with rfl | rfl | rfl | rfl <;> interval_cases b <;> decide
  · rw [BitVec.getLsbD_of_ge _ _ (by omega)]; simp [hb]

/-! ### The grid under embedding -/

theorem gridPixel_set (m : Memory Pixel) (k p : Nat) (q : Pixel) :
    gridPixel (Memory.set m k q) p = if p = k then q else gridPixel m p := by
  rw [gridPixel, Memory.get?_set]
  split <;> simp [gridPixel]

/-- A pixel after an embed into channel `i` of the traversal. -/
theorem gridPixel_embedAt (m : Memory Pixel) (i : Nat) (d : Byte) (n p : Nat) :
    gridPixel (embedAt m i d n) p =
      if p = pixelOf i then embedPixel (gridPixel m p) (channelOf i) d n else gridPixel m p := by
  rw [embedAt, gridPixel_set]
  by_cases h : p = pixelOf i
  · rw [if_pos h, if_pos h, h]
  · rw [if_neg h, if_neg h]

theorem embedAll_succ (m : Memory Pixel) (dv : List Byte) (n count : Nat) :
    embedAll m dv n (count + 1) = embedAt (embedAll m dv n count) count (selectValue dv count) n := by
  simp [embedAll, List.range_succ]

/-- A pixel after the first `count` channels were embedded: each of its channels among them holds its data value under
its old high segment, and its alpha is 255 once its first channel was embedded. -/
theorem gridPixel_embedAll (m : Memory Pixel) (dv : List Byte) (n count p : Nat) :
    gridPixel (embedAll m dv n count) p =
      ⟨if 3 * p < count then embed (gridPixel m p).r (selectValue dv (3 * p)) n else (gridPixel m p).r,
        if 3 * p + 1 < count then embed (gridPixel m p).g (selectValue dv (3 * p + 1)) n else (gridPixel m p).g,
        if 3 * p + 2 < count then embed (gridPixel m p).b (selectValue dv (3 * p + 2)) n else (gridPixel m p).b,
        if 3 * p < count then 255 else (gridPixel m p).a⟩ := by
  induction count with
  | zero => simp [embedAll]
  | succ count ih =>
    rw [embedAll_succ, gridPixel_embedAt, ih]
    by_cases hp : p = pixelOf count
    · rw [if_pos hp]
      replace hp : p = count / 3 := hp
      have h3 : count % 3 < 3 := Nat.mod_lt _ (by decide)
      have hd := Nat.div_add_mod count 3
      rcases Nat.lt_or_ge (count % 3) 1 with h | h
      · have hc : count = 3 * p := by omega
        simp [channelOf, embedPixel, hc]
      · rcases Nat.lt_or_ge (count % 3) 2 with h' | h'
        · have hc : count = 3 * p + 1 := by omega
          simp [channelOf, embedPixel, hc]
        · have hc : count = 3 * p + 2 := by omega
          simp [channelOf, embedPixel, hc]
    · rw [if_neg hp]
      replace hp : ¬p = count / 3 := hp
      have h0 : (3 * p < count + 1) = (3 * p < count) := by apply propext; omega
      have h1 : (3 * p + 1 < count + 1) = (3 * p + 1 < count) := by apply propext; omega
      have h2 : (3 * p + 2 < count + 1) = (3 * p + 2 < count) := by apply propext; omega
      simp only [h0, h1, h2]

/-! ### What the commands store -/

/-- An embed below the depth keeps the canonical form. -/
theorem embedAt_wf {depth : Nat} {m : Memory Pixel} (h : Memory.wf depth m) {i : Nat} (hi : pixelOf i < depth)
    (d : Byte) (n : Nat) : Memory.wf depth (embedAt m i d n) := Memory.wf_set h hi _

/-- Embedding into channels of pixels below the depth keeps the canonical form. -/
theorem embedAll_wf {depth : Nat} {m : Memory Pixel} (h : Memory.wf depth m) (dv : List Byte) (n : Nat) {count : Nat}
    (hc : count ≤ 3 * depth) : Memory.wf depth (embedAll m dv n count) := by
  induction count with
  | zero => exact h
  | succ count ih =>
    rw [embedAll_succ]
    exact embedAt_wf (ih (by omega)) (Nat.div_lt_of_lt_mul (by omega)) _ _

/-- What OBUF reads as after a producing command: its result, and beyond it what stood there before (R63). -/
theorem readObuf_produce (out : List Byte) (s : State) (k : Nat) :
    readObuf (produce out s) k = out[k]?.getD (readObuf s k) := by
  rw [readObuf, produce, Memory.get?_setSeq]
  by_cases h : k < out.length
  · simp [h]
  · rw [if_neg (by omega), List.getElem?_eq_none (by omega)]; rfl

theorem getElem?_inputSeq (s : State) {n k : Nat} (h : k < n) : (inputSeq s n)[k]? = some (readIbuf s k) := by
  simp [inputSeq, h]

theorem getElem?_gridValues (m : Memory Pixel) {n count i : Nat} (h : i < count) :
    (gridValues m n count)[i]? = some (extract (chan (gridPixel m (pixelOf i)) (channelOf i)) n) := by
  simp [gridValues, h]

/-- The reset state lists no entry of any memory, so each is in canonical form. -/
theorem resetWith_memories_wf (p : Params) :
    Memory.wf p.ibufDepth.val (State.resetWith p).ibuf ∧ Memory.wf p.obufDepth.val (State.resetWith p).obuf ∧
      Memory.wf p.gridDepth.val (State.resetWith p).grid :=
  ⟨Memory.wf_nil _, Memory.wf_nil _, Memory.wf_nil _⟩

end Sys2Proof.Machine
end

