-- ==== Sys2Proof/Laws/Frames.lean ====
section
/-! SUPPORT. What a command can change at all, said once for every rule and for exec; what each host move can change. -/

namespace Sys2Proof.Machine

/-- No rule changes the operand registers, IBUF or anything beside the block's own state (R40). -/
theorem ruleOf_frame {i : Instr} {s t : State} (h : ruleOf i s = .ok t) :
    t = { s with
      dstLen := t.dstLen, dOut := t.dOut, widx := t.widx, err := t.err, errcode := t.errcode,
      obuf := t.obuf, grid := t.grid } := by
  cases i with
  | nop => cases h; rfl
  | tobits => rw [(tobitsRule_ok.1 h).2]; rfl
  | frombits => rw [(frombitsRule_ok.1 h).2]; rfl
  | group => rw [(groupRule_ok.1 h).2.2]; rfl
  | ungroup => rw [(ungroupRule_ok.1 h).2.2]; rfl
  | embed => rw [(embedRule_ok.1 h).2.2]
  | extract => rw [(extractRule_ok.1 h).2.2]
  | wreset => rw [wresetRule_ok.1 h]; rfl
  | wnext => rw [wnextRule_ok.1 h]; split <;> rfl
  | encode => obtain ⟨-, -, dv, -, rfl⟩ := encodeRule_ok.1 h; rfl
  | decode => obtain ⟨-, -, dv, -, rfl⟩ := decodeRule_ok.1 h; rfl
  | clrerr => cases h; rfl

/-- A command never changes the operand registers, IBUF, the depths, the host's moves, the running opcode, the host's
last read or the count of free values. -/
theorem exec_frame {i : Instr} {s t : State} (h : exec i s = .next t) :
    t = { s with
      dstLen := t.dstLen, dOut := t.dOut, widx := t.widx, err := t.err, errcode := t.errcode,
      obuf := t.obuf, grid := t.grid, busy := t.busy, done := t.done } := by
  rw [exec_eq_gate] at h
  rcases gate_cases h with ⟨-, rfl⟩ | ⟨-, u, hu, rfl⟩ | ⟨-, e, -, rfl⟩
  · rfl
  · have := ruleOf_frame hu
    rw [this]; rfl
  · rfl

/-- A whole command answers a next state that is a command's or the illegal command's. -/
theorem issue_cases (v : PortWord) (s : State) :
    (∃ i, decodeOp (opOfPort v) = .command i ∧ issue v s = exec i s) ∨
    (∃ op, decodeOp (opOfPort v) = .illegal op ∧ issue v s = illegalCommand s) := by
  unfold issue
  cases h : decodeOp (opOfPort v) with
  | command i => exact .inl ⟨i, rfl, rfl⟩
  | illegal op => exact .inr ⟨op, rfl, rfl⟩

theorem issue_answers (v : PortWord) (s : State) : ∃ t, issue v s = .next t := by
  rcases issue_cases v s with ⟨i, -, h⟩ | ⟨op, -, h⟩
  · rw [h]; exact exec_answers i s
  · rw [h]; exact gate_answers _ _ s

/-- Everything a whole command can leave: nothing changed, the command's effect with DONE = 1, or an error recorded. -/
theorem issue_next_cases {v : PortWord} {s t : State} (h : issue v s = .next t) :
    t = s ∨
    (∃ i u, passes (clears i) s ∧ ruleOf i (accept s) = .ok u ∧ t = complete u) ∨
    (∃ c e, passes c s ∧ t = raiseError e (accept s)) := by
  rcases issue_cases v s with ⟨i, -, he⟩ | ⟨op, -, he⟩
  · rw [he, exec_eq_gate] at h
    rcases gate_cases h with ⟨-, ht⟩ | ⟨hp, u, hu, ht⟩ | ⟨hp, e, -, ht⟩
    · exact .inl ht
    · exact .inr (.inl ⟨i, u, hp, hu, ht⟩)
    · exact .inr (.inr ⟨_, e, hp, ht⟩)
  · rw [he] at h
    rcases gate_cases h with ⟨-, ht⟩ | ⟨-, u, hu, -⟩ | ⟨hp, e, -, ht⟩
    · exact .inl ht
    · cases hu
    · exact .inr (.inr ⟨_, e, hp, ht⟩)

/-- The traversal of any grid is shorter than 2^34 channels, so the cursor never wraps (R30). -/
theorem channelCount_lt (s : State) : channelCount s < 2 ^ 34 := by
  have h1 := s.height.isLt
  have h2 := s.width.isLt
  have : s.height.toNat * s.width.toNat ≤ 65535 * 65535 := Nat.mul_le_mul (by omega) (by omega)
  unfold channelCount pixelCount
  omega

theorem endCommand_answers (s : State) : ∃ t, endCommand s = .next t := by
  unfold endCommand
  split
  · exact issue_answers _ _
  · exact ⟨s, rfl⟩

/-- A memory move of the host acts on an idle block and is refused on a busy one. -/
theorem memoryMove_cases (move : State → State) (s : State) :
    (s.busy = false ∧ memoryMove move s = .next (move s)) ∨
    (s.busy = true ∧ memoryMove move s = .refused .hostMemoryWhileBusy) := by
  unfold memoryMove
  cases h : s.busy <;> simp

end Sys2Proof.Machine
end

