-- ==== Sys2Proof/Laws/HostPort.lean ====
section
/-! SUPPORT. One lemma per field of State and per reply to the host. -/

namespace Sys2Proof.Machine

/-! ### reply -/

@[simp] theorem reply_nbits (v : PortWord) (s : State) : (reply v s).nbits = s.nbits := rfl
@[simp] theorem reply_width (v : PortWord) (s : State) : (reply v s).width = s.width := rfl
@[simp] theorem reply_height (v : PortWord) (s : State) : (reply v s).height = s.height := rfl
@[simp] theorem reply_srcLen (v : PortWord) (s : State) : (reply v s).srcLen = s.srcLen := rfl
@[simp] theorem reply_dstLen (v : PortWord) (s : State) : (reply v s).dstLen = s.dstLen := rfl
@[simp] theorem reply_dIn (v : PortWord) (s : State) : (reply v s).dIn = s.dIn := rfl
@[simp] theorem reply_dOut (v : PortWord) (s : State) : (reply v s).dOut = s.dOut := rfl
@[simp] theorem reply_widx (v : PortWord) (s : State) : (reply v s).widx = s.widx := rfl
@[simp] theorem reply_busy (v : PortWord) (s : State) : (reply v s).busy = s.busy := rfl
@[simp] theorem reply_done (v : PortWord) (s : State) : (reply v s).done = s.done := rfl
@[simp] theorem reply_err (v : PortWord) (s : State) : (reply v s).err = s.err := rfl
@[simp] theorem reply_errcode (v : PortWord) (s : State) : (reply v s).errcode = s.errcode := rfl
@[simp] theorem reply_ibuf (v : PortWord) (s : State) : (reply v s).ibuf = s.ibuf := rfl
@[simp] theorem reply_obuf (v : PortWord) (s : State) : (reply v s).obuf = s.obuf := rfl
@[simp] theorem reply_grid (v : PortWord) (s : State) : (reply v s).grid = s.grid := rfl
@[simp] theorem reply_params (v : PortWord) (s : State) : (reply v s).params = s.params := rfl
@[simp] theorem reply_moves (v : PortWord) (s : State) : (reply v s).moves = s.moves := rfl
@[simp] theorem reply_runningOp (v : PortWord) (s : State) : (reply v s).runningOp = s.runningOp := rfl
@[simp] theorem reply_lastRead (v : PortWord) (s : State) : (reply v s).lastRead = v := rfl
@[simp] theorem reply_freeDraw (v : PortWord) (s : State) : (reply v s).freeDraw = s.freeDraw := rfl

/-! ### replyFree -/

@[simp] theorem replyFree_nbits (f : PortWord → PortWord) (s : State) : (replyFree f s).nbits = s.nbits := rfl
@[simp] theorem replyFree_width (f : PortWord → PortWord) (s : State) : (replyFree f s).width = s.width := rfl
@[simp] theorem replyFree_height (f : PortWord → PortWord) (s : State) : (replyFree f s).height = s.height := rfl
@[simp] theorem replyFree_srcLen (f : PortWord → PortWord) (s : State) : (replyFree f s).srcLen = s.srcLen := rfl
@[simp] theorem replyFree_dstLen (f : PortWord → PortWord) (s : State) : (replyFree f s).dstLen = s.dstLen := rfl
@[simp] theorem replyFree_dIn (f : PortWord → PortWord) (s : State) : (replyFree f s).dIn = s.dIn := rfl
@[simp] theorem replyFree_dOut (f : PortWord → PortWord) (s : State) : (replyFree f s).dOut = s.dOut := rfl
@[simp] theorem replyFree_widx (f : PortWord → PortWord) (s : State) : (replyFree f s).widx = s.widx := rfl
@[simp] theorem replyFree_busy (f : PortWord → PortWord) (s : State) : (replyFree f s).busy = s.busy := rfl
@[simp] theorem replyFree_done (f : PortWord → PortWord) (s : State) : (replyFree f s).done = s.done := rfl
@[simp] theorem replyFree_err (f : PortWord → PortWord) (s : State) : (replyFree f s).err = s.err := rfl
@[simp] theorem replyFree_errcode (f : PortWord → PortWord) (s : State) : (replyFree f s).errcode = s.errcode := rfl
@[simp] theorem replyFree_ibuf (f : PortWord → PortWord) (s : State) : (replyFree f s).ibuf = s.ibuf := rfl
@[simp] theorem replyFree_obuf (f : PortWord → PortWord) (s : State) : (replyFree f s).obuf = s.obuf := rfl
@[simp] theorem replyFree_grid (f : PortWord → PortWord) (s : State) : (replyFree f s).grid = s.grid := rfl
@[simp] theorem replyFree_params (f : PortWord → PortWord) (s : State) : (replyFree f s).params = s.params := rfl
@[simp] theorem replyFree_moves (f : PortWord → PortWord) (s : State) : (replyFree f s).moves = s.moves := rfl
@[simp] theorem replyFree_runningOp (f : PortWord → PortWord) (s : State) : (replyFree f s).runningOp = s.runningOp := rfl
@[simp] theorem replyFree_lastRead (f : PortWord → PortWord) (s : State) : (replyFree f s).lastRead = f (Config.freeRead s.freeDraw) := rfl
@[simp] theorem replyFree_freeDraw (f : PortWord → PortWord) (s : State) : (replyFree f s).freeDraw = s.freeDraw + 1 := rfl
end Sys2Proof.Machine
end

