-- ==== Sys2Proof/Laws/PerInstr.lean ====
section
/-! SUPPORT. The per-instruction family RoundTrip: each command, as syntax, is well formed, its opcode is a well-formed
command word, and the decoder reads the command back from its opcode whatever stands in the upper bits of the port (R90,
R92, R95). -/

/-- The command is well formed, and its opcode, at the foot of any port value, decodes to it. -/
def Sys2Proof.Laws.RoundTrip.Statement (i : Sys2Proof.Instr) : Prop :=
  i.wellFormed = true ∧ Sys2Proof.wellFormedWord (Sys2Proof.encode i) = true ∧
    ∀ v : Sys2Proof.PortWord, Sys2Proof.opOfPort v = Sys2Proof.encode i →
      Sys2Proof.decodeOp (Sys2Proof.opOfPort v) = .command i

theorem Sys2Proof.Laws.RoundTrip.nop : Sys2Proof.Laws.RoundTrip.Statement .nop :=
  ⟨rfl, by decide, fun _ h => h ▸ by decide⟩

theorem Sys2Proof.Laws.RoundTrip.tobits : Sys2Proof.Laws.RoundTrip.Statement .tobits :=
  ⟨rfl, by decide, fun _ h => h ▸ by decide⟩

theorem Sys2Proof.Laws.RoundTrip.frombits : Sys2Proof.Laws.RoundTrip.Statement .frombits :=
  ⟨rfl, by decide, fun _ h => h ▸ by decide⟩

theorem Sys2Proof.Laws.RoundTrip.group : Sys2Proof.Laws.RoundTrip.Statement .group :=
  ⟨rfl, by decide, fun _ h => h ▸ by decide⟩

theorem Sys2Proof.Laws.RoundTrip.ungroup : Sys2Proof.Laws.RoundTrip.Statement .ungroup :=
  ⟨rfl, by decide, fun _ h => h ▸ by decide⟩

theorem Sys2Proof.Laws.RoundTrip.embed : Sys2Proof.Laws.RoundTrip.Statement .embed :=
  ⟨rfl, by decide, fun _ h => h ▸ by decide⟩

theorem Sys2Proof.Laws.RoundTrip.extract : Sys2Proof.Laws.RoundTrip.Statement .extract :=
  ⟨rfl, by decide, fun _ h => h ▸ by decide⟩

theorem Sys2Proof.Laws.RoundTrip.wreset : Sys2Proof.Laws.RoundTrip.Statement .wreset :=
  ⟨rfl, by decide, fun _ h => h ▸ by decide⟩

theorem Sys2Proof.Laws.RoundTrip.wnext : Sys2Proof.Laws.RoundTrip.Statement .wnext :=
  ⟨rfl, by decide, fun _ h => h ▸ by decide⟩

theorem Sys2Proof.Laws.RoundTrip.encode : Sys2Proof.Laws.RoundTrip.Statement .encode :=
  ⟨rfl, by decide, fun _ h => h ▸ by decide⟩

theorem Sys2Proof.Laws.RoundTrip.decode : Sys2Proof.Laws.RoundTrip.Statement .decode :=
  ⟨rfl, by decide, fun _ h => h ▸ by decide⟩

theorem Sys2Proof.Laws.RoundTrip.clrerr : Sys2Proof.Laws.RoundTrip.Statement .clrerr :=
  ⟨rfl, by decide, fun _ h => h ▸ by decide⟩
end

