-- ==== Sys2Proof/Laws/Step.lean ====
section
/-! SUPPORT. What a step can do at all, said once: the inversion of step, of a host move and of the end of a command. -/

namespace Sys2Proof.Machine

/-- A step takes the host's next move, or, with none left, ends the running command. -/
theorem step_cases {s t : State} (h : step s = .next t) :
    (s.moves = [] ∧ endCommand s = .next t) ∨
    ∃ m rest, s.moves = m :: rest ∧ takeMove m { s with moves := rest } = .next t := by
  unfold step nextMove at h
  split at h
  · next m rest hm => exact .inr ⟨m, rest, hm, h⟩
  · next hm => exact .inl ⟨hm, h⟩

/-- The end of a command: nothing on an idle block, the whole command from the idle state on a busy one. -/
theorem endCommand_cases {s t : State} (h : endCommand s = .next t) :
    (s.busy = false ∧ t = s) ∨
    (s.busy = true ∧ issue (s.runningOp.setWidth 40) { s with busy := false, runningOp := 0 } = .next t) := by
  unfold endCommand at h
  split at h
  · next hb => exact .inr ⟨hb, h⟩
  · next hb => cases h; exact .inl ⟨by simpa using hb, rfl⟩

/-- Everything a host move that answers a next state can be. -/
theorem takeMove_cases {m : HostMove} {s t : State} (h : takeMove m s = .next t) :
    endCommand s = .next t ∨
    (∃ v, s.busy = false ∧ issue v s = .next t) ∨
    (∃ n v, t = regWriteMove n v s) ∨
    (∃ n, t = regReadMove n s) ∨
    (∃ a b, s.busy = false ∧ t = ibufWriteMove a b s) ∨
    (∃ a, s.busy = false ∧ t = ibufReadMove a s) ∨
    (∃ a, s.busy = false ∧ t = obufReadMove a s) ∨
    (∃ a w, s.busy = false ∧ t = gridWriteMove a w s) ∨
    (∃ a, s.busy = false ∧ t = gridReadMove a s) ∨
    t = resetMove s := by
  have mem : ∀ {move : State → State}, memoryMove move s = .next t → s.busy = false ∧ t = move s := by
    intro move hm
    rcases memoryMove_cases move s with ⟨hb, he⟩ | ⟨-, he⟩
    · rw [he] at hm; cases hm; exact ⟨hb, rfl⟩
    · rw [he] at hm; cases hm
  cases m with
  | cmd v =>
    unfold takeMove at h
    dsimp only at h
    split at h
    · exact .inl h
    · next hb => exact .inr (.inl ⟨v, by simpa using hb, h⟩)
  | regWrite n v => cases h; exact .inr (.inr (.inl ⟨n, v, rfl⟩))
  | regRead n => cases h; exact .inr (.inr (.inr (.inl ⟨n, rfl⟩)))
  | wait => exact .inl h
  | ibufWrite a b => exact .inr (.inr (.inr (.inr (.inl ⟨a, b, mem h⟩))))
  | ibufRead a => exact .inr (.inr (.inr (.inr (.inr (.inl ⟨a, mem h⟩)))))
  | obufRead a => exact .inr (.inr (.inr (.inr (.inr (.inr (.inl ⟨a, mem h⟩))))))
  | gridWrite a w => exact .inr (.inr (.inr (.inr (.inr (.inr (.inr (.inl ⟨a, w, mem h⟩)))))))
  | gridRead a => exact .inr (.inr (.inr (.inr (.inr (.inr (.inr (.inr (.inl ⟨a, mem h⟩))))))))
  | reset => cases h; exact .inr (.inr (.inr (.inr (.inr (.inr (.inr (.inr (.inr rfl))))))))

/-- A read of the host, whatever it reads, replies with a value or with a free value. -/
theorem regReadMove_cases (n : Nat) (s : State) :
    (∃ v, regReadMove n s = reply v s) ∨ ∃ f, regReadMove n s = replyFree f s := by
  unfold regReadMove
  split
  · split <;> exact .inr ⟨_, rfl⟩
  · split <;> exact .inl ⟨_, rfl⟩

end Sys2Proof.Machine
end

