-- ==== Sys2Proof/Tests/Slice0.lean ====
section
/-! SUPPORT. Tests of the model, expected results taken from spec/95_test_vectors.md and the rules' examples; and, for
each statement with hypotheses, a witness that meets all of them together, at the boundaries of its clauses. -/

namespace Sys2Proof.Tests

open Sys2Proof Sys2Proof.Machine

/-! ### Well-formedness and decoding -/

/-- R94: 0x0C is the first opcode that selects no command, 0x0B the last that selects one. -/
theorem test_wellFormedWord_refuses_illegal :
    wellFormedWord 0x0C = false ∧ wellFormedWord 0xFF = false ∧ wellFormedWord 0x0B = true := by decide

/-- The twelve words of R92, bit by bit (spec/opcode_table.json, "encoding"). -/
theorem test_decode_words :
    decodeOp 0b00000000#8 = .command .nop ∧ decodeOp 0b00000001#8 = .command .tobits ∧
    decodeOp 0b00000010#8 = .command .frombits ∧ decodeOp 0b00000011#8 = .command .group ∧
    decodeOp 0b00000100#8 = .command .ungroup ∧ decodeOp 0b00000101#8 = .command .embed ∧
    decodeOp 0b00000110#8 = .command .extract ∧ decodeOp 0b00000111#8 = .command .wreset ∧
    decodeOp 0b00001000#8 = .command .wnext ∧ decodeOp 0b00001001#8 = .command .encode ∧
    decodeOp 0b00001010#8 = .command .decode ∧ decodeOp 0b00001011#8 = .command .clrerr := by decide

/-- No two rows of the opcode map accept one opcode. -/
theorem test_opcodeMap_rows_do_not_overlap :
    opcodeMap.Pairwise (fun a b => a.mask &&& b.mask &&& (a.pattern ^^^ b.pattern) ≠ 0) := by decide

/-- V-F9: bits above 7 of a value written to CMD are ignored. -/
theorem test_upper_bits_ignored : decodeOp (opOfPort 0x109) = .command .encode := by decide

theorem test_decodeTableWord : decodeTableWord 8 0x0A = some .decode ∧ decodeTableWord 8 0x0C = none := by decide

/-! ### One step of each command -/

/-- The next state, where there is one. -/
def nextOf (o : Answer) : Option State :=
  match o with
  | .next t => some t
  | _ => none

/-- A grid of width × height pixels with the given words, a message, and N. -/
def block (n width height : Nat) (message : List Byte) (pixels : List PixelWord) : State :=
  { State.resetWith ⟨8, 40, 4⟩ with
    nbits := BitVec.ofNat 8 n, width := BitVec.ofNat 16 width, height := BitVec.ofNat 16 height,
    srcLen := BitVec.ofNat 40 message.length, ibuf := Memory.setSeq [] 0 message,
    grid := Memory.setSeq [] 0 (pixels.map pixelOfWord) }

/-- The OBUF content, DST_LEN and STATUS a command leaves. -/
def result (o : Answer) : Option (List Byte × Nat × Nat) :=
  (nextOf o).map fun t => (t.obuf.map Prod.snd, t.dstLen.toNat, (statusWord t).toNat)

/-- The GRID words, WIDX and STATUS a command leaves. -/
def gridResult (o : Answer) : Option (List PixelWord × Nat × Nat) :=
  (nextOf o).map fun t => (t.grid.map fun x => wordOfPixel x.2, t.widx.toNat, (statusWord t).toNat)

/-- R195, example: NOP after reset gives STATUS = 0x2. -/
theorem test_nop : result (exec .nop State.reset) = some ([], 0, 2) := by decide

/-- V-B2. -/
theorem test_tobits : result (exec .tobits (block 4 0 0 [0xA5] [])) = some ([1, 0, 1, 0, 0, 1, 0, 1], 8, 2) := by
  decide

/-- V-B10. -/
theorem test_frombits :
    result (exec .frombits (block 4 0 0 [0x03, 0x02, 0x01, 0x00, 0xFF, 0xFE, 0x00, 0x01] [])) =
      some ([0xA9], 1, 2) := by decide

/-- V-B8: fewer than 8 bits make no byte. -/
theorem test_frombits_drops : result (exec .frombits (block 4 0 0 [1, 1, 1, 1, 1, 1, 1] [])) = some ([], 0, 2) := by
  decide

/-- V-G5. -/
theorem test_group_pads : result (exec .group (block 2 0 0 [1, 0, 1, 1, 1] [])) = some ([2, 3, 2], 3, 2) := by decide

/-- V-G7. -/
theorem test_group_pads_byte : result (exec .group (block 8 0 0 [1, 0, 1, 1, 1] [])) = some ([0xB8], 1, 2) := by decide

/-- V-U2. -/
theorem test_ungroup_masks :
    result (exec .ungroup (block 4 0 0 [0xF6, 0x19] [])) = some ([0, 1, 1, 0, 1, 0, 0, 1], 8, 2) := by decide

/-- V-U3. -/
theorem test_ungroup_two : result (exec .ungroup (block 2 0 0 [3, 5, 2] [])) = some ([1, 1, 0, 1, 1, 0], 6, 2) := by
  decide

/-- R143, example: green of pixel 0 takes 8. -/
theorem test_embed :
    gridResult (exec .embed { block 4 1 1 [] [0x12345680] with widx := 1, dIn := 8 }) =
      some ([0x123856FF], 1, 10) := by decide

/-- V-E12: D_IN = 0xFF at N = 1 is masked to 1. -/
theorem test_embed_masks :
    gridResult (exec .embed { block 1 1 1 [] [0x37000000] with dIn := 0xFF }) = some ([0x370000FF], 0, 10) := by decide

/-- R145, example: red of pixel 1. -/
theorem test_extract :
    (nextOf (exec .extract { block 4 2 1 [] [0x143856FF, 0x99B0D0FF] with widx := 3 })).map (fun t => t.dOut) =
      some 0x09 := by decide

/-- R154, example. -/
theorem test_wreset : gridResult (exec .wreset { block 4 3 2 [] [] with widx := 7 }) = some ([], 0, 10) := by decide

/-- R155, example: from blue of the last pixel of row 0 to red of the first of row 1. -/
theorem test_wnext :
    (nextOf (exec .wnext { block 4 3 2 [] [] with widx := 8 })).map
      (fun t => (t.widx.toNat, cursorColumn t, cursorRow t)) = some (9, 0, 1) := by decide

/-- The walk of V-W: at 18 the cursor is exhausted and stays. -/
theorem test_wnext_exhausted : gridResult (exec .wnext { block 4 3 2 [] [] with widx := 18 }) = some ([], 18, 2) := by
  decide

/-- V-X1. -/
theorem test_encode :
    gridResult (exec .encode (block 4 2 1 [0x48, 0x69] [0x12345680, 0x9ABCDE00])) =
      some ([0x143856FF, 0x99B0D0FF], 6, 2) := by decide

/-- V-X4: a message larger than the grid. -/
theorem test_encode_overrun :
    gridResult (exec .encode (block 2 3 1 [0x48, 0x69, 0x21] [0xFF008110, 0x7E55AAFF, 0x03FC407F])) =
      some ([0xFD0082FF, 0x7C55AAFF, 0x02FD40FF], 9, 2) := by decide

/-- V-X8. -/
theorem test_decode :
    result (exec .decode (block 4 2 1 [] [0x143856FF, 0x99B0D0FF])) = some ([0x48, 0x69, 0x00], 3, 2) := by decide

/-- V-X9: another N. -/
theorem test_decode_other_n : result (exec .decode (block 2 2 1 [] [0x143856FF, 0x99B0D0FF])) = some ([0x09], 1, 2) := by
  decide

/-- V-F11: CLRERR with WVALID = 1 gives 0xA. -/
theorem test_clrerr :
    result (exec .clrerr { block 4 1 1 [] [] with err := true, errcode := 1 }) = some ([], 0, 10) := by decide

/-- V-F12 and V-F14: N before range, and 24 > 16 is a RangeError. -/
theorem test_check_order :
    (nextOf (exec .group { block 3 1 1 [] [] with srcLen := 9 })).map (fun t => (statusWord t, t.errcode)) =
      some (0xC, 1) ∧
    (nextOf (exec .tobits { block 3 1 1 [] [] with params := ⟨4, 16, 2⟩, srcLen := 3 })).map
      (fun t => (statusWord t, t.errcode)) = some (0xC, 2) := by decide

/-- V-F7: an illegal opcode; V-F10: the held-off state ignores it. -/
theorem test_illegal :
    (nextOf (takeMove (.cmd 0x0C) (block 4 1 1 [] []))).map (fun t => (statusWord t, t.errcode)) = some (0xC, 3) ∧
    (nextOf (takeMove (.cmd 0xFF) { block 4 1 1 [] [] with err := true, errcode := 1 })).map
      (fun t => (statusWord t, t.errcode)) = some (0xC, 1) := by decide

/-- V-W4: a write of the same WIDTH resets the cursor. -/
theorem test_width_write :
    (nextOf (takeMove (.regWrite 0x04 3) { block 4 3 2 [] [] with widx := 7 })).map (fun t => t.widx) = some 0 := by
  decide

/-- Program P3, line 6: STATUS, WX, WY and WC at WIDX = 4 of a 2 × 1 grid read 0xA, 1, 0, 1. -/
theorem test_views :
    [0x01, 0x0B, 0x0C, 0x0D].map (fun n =>
      (nextOf (takeMove (.regRead n) { block 4 2 1 [] [] with widx := 4, done := true })).map (fun t => t.lastRead)) =
      [some 0xA, some 1, some 0, some 1] := by decide

/-- The first step after reset runs the command placed: NOP leaves DONE = 1. -/
theorem test_step_runs_placed : (nextOf (step (State.reset.withFetchWord 8 0))).map (fun t => t.done) = some true := by
  decide

/-! ### Witnesses: each statement's hypotheses can be met -/

/-- The state most witnesses use: idle, N = 4, a 2 × 1 grid, a two-byte message. -/
def wit : State := block 4 2 1 [0x48, 0x69] [0x12345680, 0x9ABCDE00]

theorem witness_DecoderIsTheOpcodeMap : 0x0C ≤ (0x0C : Byte).toNat ∧ 0x0C ≤ (0xFF : Byte).toNat := by decide

theorem witness_DecodeInvertsEncode : decodeOp 0x0B = .command .clrerr := by decide

theorem witness_UpperCommandBitsIgnored :
    (0x109 : PortWord).setWidth 8 = (0x09 : PortWord).setWidth 8 ∧ (0x109 : PortWord) ≠ 0x09 := by decide

theorem witness_StepRunsDecodedCommand :
    ({ wit with moves := [.cmd 0x0B, .wait] } : State).moves = .cmd 0x0B :: [.wait] ∧ wit.busy = false ∧
    decodeOp ((0x0B : PortWord).setWidth 8) = .command .clrerr ∧
    ({ wit with moves := [.cmd 0x0C] } : State).moves = .cmd 0x0C :: [] ∧
    decodeOp ((0x0C : PortWord).setWidth 8) = .illegal 0x0C := by decide

theorem witness_PlacedCommandRunsNext : decodeTableWord 8 0x09 = some .encode := by decide

theorem witness_StepTakesHostMovesInOrder :
    ({ wit with moves := [.regRead 1] } : State).moves = .regRead 1 :: [] ∧
    (wit.moves = [] ∧ wit.busy = false) ∧
    (({ wit with busy := true, runningOp := 9 } : State).moves = [] ∧
      ({ wit with busy := true, runningOp := 9 } : State).busy = true) := by decide

theorem witness_BusyWindowEqualsAtomicCommand : wit.busy = false ∧ wit.runningOp = 0 := by decide

theorem witness_EveryCommandEnds : wit.busy = false := by decide

theorem witness_NopOnlySetsDone :
    ready wit ∧ ({ wit with err := true, errcode := 1 } : State).busy = false ∧
    ({ wit with err := true, errcode := 1 } : State).err = true := by decide

theorem witness_ClrerrClearsError :
    wit.busy = false ∧ ({ wit with err := true, errcode := 1 } : State).err = true ∧
    Instr.nop ≠ .clrerr ∧ Instr.decode ≠ .clrerr := by decide

theorem witness_WresetRestartsCursor : ready { wit with widx := 6 } := by decide

/-- The two clauses meet at WIDX = 3 H W = 6: 5 is the last step, 6 stays. -/
theorem witness_WnextStepsCursor :
    ready wit ∧ ({ wit with widx := 5 } : State).widx.toNat < 3 * (wit.height.toNat * wit.width.toNat) ∧
    3 * (wit.height.toNat * wit.width.toNat) ≤ ({ wit with widx := 6 } : State).widx.toNat := by decide

/-- OBUF_DEPTH = 40: five bytes just fit, six do not; IBUF_DEPTH = 8: nine bytes do not. -/
theorem witness_TobitsSerializesInput :
    ready wit ∧ (5 ≤ wit.params.ibufDepth.val ∧ 8 * 5 ≤ wit.params.obufDepth.val) ∧
    ({ wit with srcLen := 5 } : State).srcLen.toNat = 5 ∧
    wit.params.obufDepth.val < 8 * ({ wit with srcLen := 6 } : State).srcLen.toNat ∧
    wit.params.ibufDepth.val < ({ wit with srcLen := 9 } : State).srcLen.toNat := by decide

/-- IBUF_DEPTH = 8: eight bits just fit, nine do not; with OBUF_DEPTH = 0 one byte does not. -/
theorem witness_FrombitsDeserializesInput :
    ready wit ∧
    (({ wit with srcLen := 8 } : State).srcLen.toNat ≤ wit.params.ibufDepth.val ∧
      ({ wit with srcLen := 8 } : State).srcLen.toNat / 8 ≤ wit.params.obufDepth.val) ∧
    wit.params.ibufDepth.val < ({ wit with srcLen := 9 } : State).srcLen.toNat ∧
    ({ wit with params := ⟨8, 0, 4⟩ } : State).params.obufDepth.val <
      ({ wit with srcLen := 8 } : State).srcLen.toNat / 8 := by decide

/-- N = 3 fails the N check; at N = 4 eight bits in IBUF fit and nine do not; two values do not fit an OBUF of one. -/
theorem witness_GroupPacksInput :
    ready wit ∧ ({ wit with nbits := 3 } : State).nbits.toNat ∉ [1, 2, 4, 8] ∧ wit.nbits.toNat ∈ [1, 2, 4, 8] ∧
    (({ wit with srcLen := 8 } : State).srcLen.toNat ≤ wit.params.ibufDepth.val ∧
      (8 + wit.nbits.toNat - 1) / wit.nbits.toNat ≤ wit.params.obufDepth.val) ∧
    wit.params.ibufDepth.val < ({ wit with srcLen := 9 } : State).srcLen.toNat ∧
    ({ wit with params := ⟨8, 1, 4⟩ } : State).params.obufDepth.val <
      (({ wit with srcLen := 8 } : State).srcLen.toNat + wit.nbits.toNat - 1) / wit.nbits.toNat := by decide

/-- N = 0 fails the N check; at N = 8 five values just fit OBUF_DEPTH = 40, six do not, nine do not fit IBUF. -/
theorem witness_UngroupUnpacksInput :
    ready wit ∧ ({ wit with nbits := 0 } : State).nbits.toNat ∉ [1, 2, 4, 8] ∧
    ({ wit with nbits := 8 } : State).nbits.toNat ∈ [1, 2, 4, 8] ∧
    (5 ≤ wit.params.ibufDepth.val ∧ 8 * 5 ≤ wit.params.obufDepth.val) ∧
    wit.params.obufDepth.val < 8 * ({ wit with srcLen := 6 } : State).srcLen.toNat ∧
    wit.params.ibufDepth.val < ({ wit with srcLen := 9 } : State).srcLen.toNat := by decide

/-- A 2 × 1 grid: channels 0 to 5 are red, green, blue twice; 6 is exhausted; GRID_DEPTH = 1 shuts out pixel 1. -/
theorem witness_EmbedWritesChannelAtCursor :
    ready wit ∧ ({ wit with nbits := 9 } : State).nbits.toNat ∉ [1, 2, 4, 8] ∧ wit.nbits.toNat ∈ [1, 2, 4, 8] ∧
    3 * (wit.height.toNat * wit.width.toNat) ≤ ({ wit with widx := 6 } : State).widx.toNat ∧
    ({ wit with params := ⟨8, 40, 1⟩ } : State).params.gridDepth.val ≤ ({ wit with widx := 3 } : State).widx.toNat / 3 ∧
    (∀ i ∈ [0, 1, 2, 5], i < 3 * (wit.height.toNat * wit.width.toNat) ∧ i / 3 < wit.params.gridDepth.val) ∧
    0 % 3 = 0 ∧ 1 % 3 = 1 ∧ 2 % 3 = 2 ∧ (1 : Nat) ≠ 0 / 3 := by decide

theorem witness_ExtractReadsChannelAtCursor :
    ready wit ∧ ({ wit with nbits := 255 } : State).nbits.toNat ∉ [1, 2, 4, 8] ∧ wit.nbits.toNat ∈ [1, 2, 4, 8] ∧
    3 * (wit.height.toNat * wit.width.toNat) ≤ ({ wit with widx := 6 } : State).widx.toNat ∧
    ({ wit with params := ⟨8, 40, 1⟩ } : State).params.gridDepth.val ≤ ({ wit with widx := 3 } : State).widx.toNat / 3 ∧
    ∀ i ∈ [3, 4, 5], i < 3 * (wit.height.toNat * wit.width.toNat) ∧ i / 3 < wit.params.gridDepth.val := by decide

/-- GRID_DEPTH = 2 just holds the 2 × 1 grid, 1 does not; an IBUF of one byte does not hold the message. -/
theorem witness_EncodeEmbedsMessage :
    ready wit ∧ ({ wit with nbits := 3 } : State).nbits.toNat ∉ [1, 2, 4, 8] ∧ wit.nbits.toNat ∈ [1, 2, 4, 8] ∧
    (wit.srcLen.toNat ≤ (⟨2, 40, 2⟩ : Params).ibufDepth.val ∧
      wit.height.toNat * wit.width.toNat ≤ (⟨2, 40, 2⟩ : Params).gridDepth.val) ∧
    (⟨1, 40, 2⟩ : Params).ibufDepth.val < wit.srcLen.toNat ∧
    (⟨2, 40, 1⟩ : Params).gridDepth.val < wit.height.toNat * wit.width.toNat ∧
    1 < wit.height.toNat * wit.width.toNat ∧ wit.height.toNat * wit.width.toNat ≤ 2 := by decide

theorem witness_EncodeClosedForm :
    ready wit ∧ wit.nbits.toNat ∈ [1, 2, 4, 8] ∧ wit.srcLen.toNat ≤ wit.params.ibufDepth.val ∧
    wit.height.toNat * wit.width.toNat ≤ wit.params.gridDepth.val := by decide

/-- The 2 × 1 grid at N = 4 decodes to 3 bytes: an OBUF of 3 just holds them, one of 2 does not. -/
theorem witness_DecodeReassemblesBytes :
    ready wit ∧ ({ wit with nbits := 3 } : State).nbits.toNat ∉ [1, 2, 4, 8] ∧ wit.nbits.toNat ∈ [1, 2, 4, 8] ∧
    (wit.height.toNat * wit.width.toNat ≤ (⟨2, 3, 2⟩ : Params).gridDepth.val ∧
      3 * (wit.height.toNat * wit.width.toNat) * wit.nbits.toNat / 8 ≤ (⟨2, 3, 2⟩ : Params).obufDepth.val) ∧
    (⟨2, 3, 1⟩ : Params).gridDepth.val < wit.height.toNat * wit.width.toNat ∧
    (⟨2, 2, 2⟩ : Params).obufDepth.val < 3 * (wit.height.toNat * wit.width.toNat) * wit.nbits.toNat / 8 := by decide

theorem witness_DecodeClosedForm :
    ready wit ∧ wit.nbits.toNat ∈ [1, 2, 4, 8] ∧ wit.height.toNat * wit.width.toNat ≤ wit.params.gridDepth.val ∧
    3 * (wit.height.toNat * wit.width.toNat) * wit.nbits.toNat / 8 ≤ wit.params.obufDepth.val := by decide

/-- Every value of NBITS next to a legal one fails the N check. -/
theorem witness_InvalidNRaisesConfigurationError :
    ready wit ∧ ∀ b ∈ ([0, 3, 5, 7, 9, 255] : List Byte), ({ wit with nbits := b } : State).nbits.toNat ∉ [1, 2, 4, 8] := by
  decide

theorem witness_RangeErrorTable :
    ready wit ∧ wit.nbits.toNat ∈ [1, 2, 4, 8] ∧
    wit.params.ibufDepth.val < ({ wit with srcLen := 9 } : State).srcLen.toNat ∧
    wit.params.obufDepth.val < 8 * ({ wit with srcLen := 6 } : State).srcLen.toNat ∧
    (⟨8, 0, 4⟩ : Params).obufDepth.val < 8 / 8 ∧ (⟨8, 1, 4⟩ : Params).obufDepth.val < (8 + 4 - 1) / 4 ∧
    (⟨8, 31, 4⟩ : Params).obufDepth.val < 4 * 8 ∧
    3 * (wit.height.toNat * wit.width.toNat) ≤ ({ wit with widx := 6 } : State).widx.toNat ∧
    (⟨8, 40, 1⟩ : Params).gridDepth.val ≤ ({ wit with widx := 3 } : State).widx.toNat / 3 ∧
    (⟨8, 40, 1⟩ : Params).gridDepth.val < wit.height.toNat * wit.width.toNat ∧
    (⟨8, 2, 2⟩ : Params).obufDepth.val < 3 * (wit.height.toNat * wit.width.toNat) * wit.nbits.toNat / 8 := by decide

theorem witness_IllegalOpcodeRaisesIllegalCommand :
    ready wit ∧ 0x0C ≤ ((0x0C : PortWord).setWidth 8 : Byte).toNat ∧
    0x0C ≤ ((0xFF : PortWord).setWidth 8 : Byte).toNat := by decide

/-- ENCODE with N = 3 fails. -/
theorem witness_ErrorsArePrecise :
    ready { wit with nbits := 3 } ∧
    (nextOf (takeMove (.cmd 0x09) { wit with nbits := 3 })).map (fun t => t.err) = some true := by decide

/-- ERR = 0 with a command whose checks pass, one that fails each check, both at once (R214), and opcode 0x0C; ERR = 1
with CLRERR and with another. -/
theorem witness_FlagsAfterCommandWrite :
    wit.busy = false ∧ flagsOk wit ∧ wit.err = false ∧ flagsOk { wit with err := true, errcode := 2 } ∧
    (0x09 : PortWord).setWidth 8 = encode .encode ∧ failingCheck .encode wit = 0 ∧
    failingCheck .encode { wit with nbits := 3 } = 1 ∧ failingCheck .encode { wit with srcLen := 9 } = 2 ∧
    failingCheck .encode { wit with nbits := 3, srcLen := 9 } = 1 ∧ failingCheck .tobits { wit with nbits := 3 } = 0 ∧
    ({ wit with err := true, errcode := 2 } : State).err = true ∧
    0x0C ≤ ((0x0C : PortWord).setWidth 8 : Byte).toNat ∧
    (0x0B : PortWord).setWidth 8 = (0x0B : Byte) ∧ (0x0A : PortWord).setWidth 8 ≠ (0x0B : Byte) := by decide

theorem witness_ErrorStateHoldsCommandsOff :
    ({ wit with err := true, errcode := 1 } : State).busy = false ∧
    ({ wit with err := true, errcode := 1 } : State).err = true ∧ (0x09 : PortWord).setWidth 8 ≠ (0x0B : Byte) ∧
    (0x03 : Nat) ≠ 0x00 := by decide

theorem witness_ClrerrRecoversFailedCommand :
    ready { wit with nbits := 3 } ∧ ({ wit with nbits := 3 } : State).errcode = 0 ∧
    (nextOf (takeMove (.cmd 0x0A) { wit with nbits := 3 })).map (fun t => t.err) = some true := by decide

/-- Every command answers a next state, so the frame statements speak of every command. -/
theorem witness_CommandsWriteOnlyTheirRegisters (i : Instr) : ∃ t, exec i wit = .next t := exec_answers i wit

theorem witness_CommandsWriteOnlyTheirEntries :
    (∀ i : Instr, ∃ t, exec i wit = .next t) ∧ obufWrites .decode wit = 3 ∧ gridWrites .encode wit 1 = true ∧
    gridWrites .encode wit 2 = false := ⟨fun i => exec_answers i wit, by decide⟩

/-- FROMBITS of 9 bits reads entries 0 to 7: a state that differs in entry 8 alone meets the hypotheses. -/
theorem witness_CommandsReadOnlyTheirEntries :
    let s := block 4 0 0 [1, 0, 1, 0, 0, 1, 0, 1, 1] []
    let t := block 4 0 0 [1, 0, 1, 0, 0, 1, 0, 1, 0] []
    ready s ∧ t = { s with ibuf := t.ibuf, obuf := t.obuf, grid := t.grid } ∧
    (∀ k, k < ibufReads .frombits s → readIbuf t k = readIbuf s k) ∧
    (∀ p, gridReads .frombits s p = true → readGrid t p = readGrid s p) ∧ t ≠ s := by
  refine ⟨by decide, by decide, by decide, fun p h => ?_, by decide⟩
  exact absurd h (by simp [gridReads])

/-- Two grids that differ in alpha alone. -/
theorem witness_AlphaIsNeverRead :
    let s := block 4 1 1 [] [0x12345680]
    let t := block 4 1 1 [] [0x12345600]
    t = { s with grid := t.grid } ∧
    (∀ p, (readGrid t p).r = (readGrid s p).r ∧ (readGrid t p).g = (readGrid s p).g ∧
      (readGrid t p).b = (readGrid s p).b) ∧ t ≠ s := by
  refine ⟨by decide, fun p => ?_, by decide⟩
  cases p with
  | zero => decide
  | succ p => exact ⟨rfl, rfl, rfl⟩

theorem witness_ToBitsFormula : 1 < ([0x48, 0x69] : List Byte).length ∧ 7 ≤ 7 := by decide

theorem witness_FromBitsFormula : 0 < (List.replicate 11 true).length / 8 := by decide

theorem witness_GroupFormula :
    2 ∈ [1, 2, 4, 8] ∧ 2 < ([true, false, true, true, true].length + 2 - 1) / 2 ∧
    (2 : Byte) ∈ group [true, false, true, true, true] 2 := by decide

theorem witness_UngroupFormula : 4 ∈ [1, 2, 4, 8] ∧ 1 < ([0xF6, 0x19] : List Byte).length ∧ 3 < 4 := by decide

theorem witness_BitStreamLaws : 8 ∣ (List.replicate 8 true).length := by decide

theorem witness_BitPackerLaws : ∀ n ∈ [1, 2, 4, 8], n ∣ (List.replicate 8 true).length := by decide

theorem witness_PackedFieldClosedForms :
    2 ∈ [1, 2, 4, 8] ∧ 5 / (8 / 2) < ([0x48, 0x69] : List Byte).length ∧
    0 < 2 * ([2, 2, 1, 1] : List Byte).length / 8 := by decide

theorem witness_EmbedReplacesLowSegment :
    ∀ n ∈ [1, 2, 4, 8], (BitVec.ofNat 8 (2 ^ n - 1)).toNat < 2 ^ n := by decide

theorem witness_ChannelRoundTrip : ∀ n ∈ [1, 2, 4, 8], (BitVec.ofNat 8 (2 ^ n - 1)).toNat < 2 ^ n := by decide

/-- A 3 × 2 grid at channel 8: the blue channel that ends row 0; and the other kinds of step. -/
theorem witness_CursorWalksTraversalOrder :
    let s := { block 4 3 2 [] [] with widx := 8 }
    ready s ∧ 0 < s.width.toNat ∧ 0 < s.height.toNat ∧ 2 < s.width.toNat ∧ 0 < s.height.toNat ∧
    s.widx.toNat = 3 * (0 * s.width.toNat + 2) + 2 ∧ wvalid s = true ∧ s.widx.toNat % 3 = 2 ∧
    cursorColumn s + 1 = s.width.toNat ∧ cursorRow s + 1 < s.height.toNat ∧
    cursorColumn { s with widx := 5 } + 1 < s.width.toNat ∧ 17 % 3 = 2 ∧
    cursorColumn { s with widx := 17 } + 1 = s.width.toNat ∧ cursorRow { s with widx := 17 } + 1 = s.height.toNat := by
  decide

theorem witness_WalkLoopVisitsEveryChannel :
    ready wit ∧ 6 ≤ 3 * (wit.height.toNat * wit.width.toNat) := by decide

theorem witness_EncodeEqualsUnitCommandLoop :
    ready wit ∧ wit.nbits.toNat ∈ [1, 2, 4, 8] ∧ wit.srcLen.toNat ≤ wit.params.ibufDepth.val ∧
    wit.height.toNat * wit.width.toNat ≤ wit.params.gridDepth.val := by decide

theorem witness_EncodeReplacesEarlierMessage :
    ready wit ∧ (nextOf (exec .encode wit)).map (fun t => t.err) = some false ∧
    (nextOf (exec .encode { wit with ibuf := [(0, 0x21)], srcLen := 1 })).map (fun t => t.err) = some false := by decide

/-- The 3-byte capacity of a 2 × 1 grid at N = 4: a message of exactly 3 bytes fits. DECODE is issued in a state that
differs from the one ENCODE left in SRC_LEN, D_IN, WIDX, IBUF and OBUF. -/
theorem witness_DecodeRecoversMessage :
    let s := { wit with srcLen := 3 }
    ready s ∧ s.nbits.toNat ∈ [1, 2, 4, 8] ∧ s.srcLen.toNat ≤ s.params.ibufDepth.val ∧
    s.height.toNat * s.width.toNat ≤ s.params.gridDepth.val ∧
    3 * (s.height.toNat * s.width.toNat) * s.nbits.toNat / 8 ≤ s.params.obufDepth.val ∧
    8 * s.srcLen.toNat ≤ 3 * (s.height.toNat * s.width.toNat) * s.nbits.toNat ∧
    wit.srcLen.toNat ≤ 2 ∧ 2 < 3 * (s.height.toNat * s.width.toNat) * s.nbits.toNat / 8 := by decide

theorem witness_DecodeRecoversMessage_between :
    ∃ t, exec .encode wit = .next t ∧
      let u := { t with srcLen := 0, dIn := 7, widx := 0, ibuf := [], obuf := [(0, 9)] }
      ready u ∧ u.width = t.width ∧ u.height = t.height ∧ u.nbits = t.nbits ∧ u.params = t.params ∧
      ∀ p, p < wit.height.toNat * wit.width.toNat → readGrid u p = readGrid t p :=
  ⟨_, rfl, by decide, rfl, rfl, rfl, rfl, fun _ _ => rfl⟩

/-- A message of 4 bytes does not fit the 3-byte capacity. -/
theorem witness_DecodeTruncatesAtCapacity :
    let s := { wit with srcLen := 4 }
    ready s ∧ s.nbits.toNat ∈ [1, 2, 4, 8] ∧ s.srcLen.toNat ≤ s.params.ibufDepth.val ∧
    s.height.toNat * s.width.toNat ≤ s.params.gridDepth.val ∧
    3 * (s.height.toNat * s.width.toNat) * s.nbits.toNat / 8 ≤ s.params.obufDepth.val ∧
    3 * (s.height.toNat * s.width.toNat) * s.nbits.toNat < 8 * s.srcLen.toNat := by decide

theorem witness_RegisterWrites :
    wit.busy = false ∧ 0x0D ∈ [0x01, 0x02, 0x07, 0x09, 0x0A, 0x0B, 0x0C, 0x0D] ∧ 0x0E ≤ 0x0E := by decide

theorem witness_RegisterReads :
    wit.busy = false ∧ cursorOk { wit with widx := 6 } ∧ ¬cursorOk { wit with widx := 7 } := by decide

theorem witness_BusyWindowShutsTheHostOut :
    ({ wit with busy := true, runningOp := 9 } : State).busy = true := by decide

/-- GRID_DEPTH = 4, IBUF_DEPTH = 8, OBUF_DEPTH = 40: the last entry of each, and the first number past it. -/
theorem witness_HostMemoryMoves :
    wit.busy = false ∧ 7 < wit.params.ibufDepth.val ∧ wit.params.ibufDepth.val ≤ 8 ∧ 39 < wit.params.obufDepth.val ∧
    3 < wit.params.gridDepth.val ∧ wit.params.gridDepth.val ≤ 4 := by decide

/-- Each kind of read, of the last entry of its memory, whatever the other depths are; and of an unassigned register. -/
theorem witness_ReadsHaveNoSideEffect :
    wit.busy = false ∧
    HostMove.regRead 14 ∈ [HostMove.regRead 14, .ibufRead 14, .obufRead 14, .gridRead 14] ∧
    HostMove.ibufRead 7 ∈ [HostMove.regRead 7, .ibufRead 7, .obufRead 7, .gridRead 7] ∧ 7 < wit.params.ibufDepth.val ∧
    HostMove.obufRead 39 ∈ [HostMove.regRead 39, .ibufRead 39, .obufRead 39, .gridRead 39] ∧
    39 < wit.params.obufDepth.val ∧ wit.params.ibufDepth.val ≤ 39 ∧ wit.params.gridDepth.val ≤ 39 ∧
    HostMove.gridRead 3 ∈ [HostMove.regRead 3, .ibufRead 3, .obufRead 3, .gridRead 3] ∧ 3 < wit.params.gridDepth.val ∧
    (nextOf (takeMove (.regRead 14) wit)).isSome = true ∧ (nextOf (takeMove (.ibufRead 7) wit)).isSome = true ∧
    (nextOf (takeMove (.obufRead 39) wit)).isSome = true ∧ (nextOf (takeMove (.gridRead 3) wit)).isSome = true := by
  decide

theorem witness_ResetLeavesResetValues : wit.busy = false := by decide

/-- ENCODE is running when the reset comes; it would have completed. -/
theorem witness_ResetAbandonsRunningCommand :
    let s := { wit with busy := true, runningOp := 9 }
    s.busy = true ∧ (nextOf (takeMove .wait s)).map (fun t => t.done) = some true := by decide

/-- The invariants hold of a state that is not the reset state, and a step from it answers a next state. -/
theorem witness_StepKeepsMemoriesCanonical :
    memoriesOk wit ∧ (nextOf (step { wit with moves := [.cmd 0x09] })).isSome = true := by decide

theorem witness_StepKeepsCursorInGrid :
    cursorOk { wit with widx := 6 } ∧ (nextOf (step { wit with widx := 6, moves := [.cmd 0x08] })).isSome = true := by
  decide

theorem witness_StepKeepsFlagsConsistent :
    let s := { wit with busy := true, err := true, errcode := 2, runningOp := 0x0B }
    flagsOk s ∧ runningOk s ∧ (nextOf (step s)).isSome = true := by decide

end Sys2Proof.Tests
end

/-! ## What a host move can do to the block's own registers

The frame of the read and memory moves and the inversion of a register write, then one inversion of a step, from which
the invariants of R23, R30 and R32 follow case by case. -/

namespace Sys2Proof.Machine

/-- The host's read and memory moves touch at most the two memories the host writes (R84), the value it last read and
the count of free values. -/
abbrev portFrame (s t : State) : Prop :=
  t = { s with ibuf := t.ibuf, grid := t.grid, lastRead := t.lastRead, freeDraw := t.freeDraw }

theorem regReadMove_portFrame (n : Nat) (s : State) : portFrame s (regReadMove n s) := by
  rcases regReadMove_cases n s with ⟨v, h⟩ | ⟨f, h⟩ <;> rw [h] <;> rfl

theorem ibufWriteMove_portFrame (a : Nat) (b : Byte) (s : State) : portFrame s (ibufWriteMove a b s) := by
  unfold ibufWriteMove; split <;> rfl

theorem ibufReadMove_portFrame (a : Nat) (s : State) : portFrame s (ibufReadMove a s) := by
  unfold ibufReadMove; split <;> rfl

theorem obufReadMove_portFrame (a : Nat) (s : State) : portFrame s (obufReadMove a s) := by
  unfold obufReadMove; split <;> rfl

theorem gridWriteMove_portFrame (a : Nat) (w : PixelWord) (s : State) : portFrame s (gridWriteMove a w s) := by
  unfold gridWriteMove; split <;> rfl

theorem gridReadMove_portFrame (a : Nat) (s : State) : portFrame s (gridReadMove a s) := by
  unfold gridReadMove; split <;> rfl

/-- Idle or in mid-command, the reset input ends in the reset registers (R235, R236). -/
theorem resetMove_eq (s : State) : ∃ u, resetMove s = resetRegisters u := by
  unfold resetMove; split <;> exact ⟨_, rfl⟩

/-- A register write is ignored, starts a command, or stores into one register. -/
theorem regWriteMove_cases (n : Nat) (v : PortWord) (s : State) :
    regWriteMove n v s = s ∨ regWriteMove n v s = openCommand v s ∨ ∃ r, regWriteMove n v s = writeReg s v r := by
  unfold regWriteMove
  split
  · exact .inl rfl
  · split
    · exact .inr (.inl rfl)
    · exact .inr (.inr ⟨_, rfl⟩)
    · exact .inl rfl

/-- A bare write to CMD is ignored, or the gate accepts it and the command goes on running (R91). -/
theorem openCommand_cases (v : PortWord) (s : State) :
    openCommand v s = s ∨
    (s.busy = false ∧ (s.err = true → opOfPort v = 0x0B) ∧
      openCommand v s = { accept s with runningOp := opOfPort v }) := by
  unfold openCommand
  split
  · next h =>
    simp only [accepts, Bool.and_eq_true, Bool.or_eq_true, Bool.not_eq_true', beq_iff_eq] at h
    obtain ⟨hb, he⟩ := h
    exact .inr ⟨hb, fun herr => he.resolve_left (by simp [herr]), rfl⟩
  · exact .inl rfl

/-- Everything a step that answers a next state can be, from the state `r` that holds the moves after it. -/
theorem step_next_cases {s t : State} (h : step s = .next t) :
    ∃ r, (∃ ms, r = { s with moves := ms }) ∧
      (endCommand r = .next t ∨ (∃ v, issue v r = .next t) ∨ (∃ n v, t = regWriteMove n v r) ∨
        portFrame r t ∨ ∃ u, t = resetRegisters u) := by
  rcases step_cases h with ⟨-, he⟩ | ⟨m, rest, -, hm⟩
  · exact ⟨s, ⟨s.moves, rfl⟩, .inl he⟩
  · refine ⟨{ s with moves := rest }, ⟨rest, rfl⟩, ?_⟩
    rcases takeMove_cases hm with he | ⟨v, -, hi⟩ | hw | ⟨n, rfl⟩ | ⟨a, b, -, rfl⟩ | ⟨a, -, rfl⟩ | ⟨a, -, rfl⟩ |
      ⟨a, w, -, rfl⟩ | ⟨a, -, rfl⟩ | rfl
    · exact .inl he
    · exact .inr (.inl ⟨v, hi⟩)
    · exact .inr (.inr (.inl hw))
    · exact .inr (.inr (.inr (.inl (regReadMove_portFrame n _))))
    · exact .inr (.inr (.inr (.inl (ibufWriteMove_portFrame a b _))))
    · exact .inr (.inr (.inr (.inl (ibufReadMove_portFrame a _))))
    · exact .inr (.inr (.inr (.inl (obufReadMove_portFrame a _))))
    · exact .inr (.inr (.inr (.inl (gridWriteMove_portFrame a w _))))
    · exact .inr (.inr (.inr (.inl (gridReadMove_portFrame a _))))
    · exact .inr (.inr (.inr (.inr (resetMove_eq _))))

end Sys2Proof.Machine

/-! ## The registers and memories each command may write (R40) -/

namespace Sys2Proof.Machine

/-- The columns of R40's table that differ from command to command: what a command not named in a column leaves as it
was. The other columns are `ruleOf_frame`. -/
structure WritesOnlyColumns (i : Instr) (s u : State) : Prop where
  output : i ∉ [Instr.tobits, .frombits, .group, .ungroup, .decode] → u.dstLen = s.dstLen ∧ u.obuf = s.obuf
  dOut : i ≠ .extract → u.dOut = s.dOut
  widx : i ∉ [Instr.wreset, .wnext, .encode, .decode] → u.widx = s.widx
  grid : i ∉ [Instr.embed, .encode] → u.grid = s.grid
  error : i ≠ .clrerr → u.err = s.err ∧ u.errcode = s.errcode

theorem ruleOf_writesOnlyColumns {i : Instr} {s u : State} (h : ruleOf i s = .ok u) : WritesOnlyColumns i s u := by
  cases i with
  | nop => cases h; constructor <;> simp
  | tobits => obtain ⟨-, rfl⟩ := tobitsRule_ok.1 h; constructor <;> simp
  | frombits => obtain ⟨-, rfl⟩ := frombitsRule_ok.1 h; constructor <;> simp
  | group => obtain ⟨-, -, rfl⟩ := groupRule_ok.1 h; constructor <;> simp
  | ungroup => obtain ⟨-, -, rfl⟩ := ungroupRule_ok.1 h; constructor <;> simp
  | embed => obtain ⟨-, -, rfl⟩ := embedRule_ok.1 h; constructor <;> simp
  | extract => obtain ⟨-, -, rfl⟩ := extractRule_ok.1 h; constructor <;> simp
  | wreset => obtain rfl := wresetRule_ok.1 h; constructor <;> simp
  | wnext => obtain rfl := wnextRule_ok.1 h; constructor <;> split <;> simp
  | encode => obtain ⟨-, -, dv, -, rfl⟩ := encodeRule_ok.1 h; constructor <;> simp
  | decode => obtain ⟨-, -, dv, -, rfl⟩ := decodeRule_ok.1 h; constructor <;> simp
  | clrerr => cases h; constructor <;> simp

/-- The gate accepts a command other than CLRERR only with no error recorded (R91). -/
theorem err_of_passes {i : Instr} {s : State} (hp : passes (clears i) s) (hi : i ≠ .clrerr) : s.err = false := by
  have hclears : clears i = false := by
    cases i with
    | clrerr => exact absurd rfl hi
    | _ => rfl
  simpa [hclears] using hp.2

/-- The codes of R206 are 1, 2 and 3. -/
theorem errorCode_ne_zero (e : ErrorKind) : errorCode e ≠ 0 := by cases e <;> decide

/-- A command the gate lets through with no error recorded before it, or CLRERR, leaves none recorded. -/
theorem ruleOf_clear {i : Instr} {s u : State} (hp : passes (clears i) s) (hs : s.err = true ↔ s.errcode ≠ 0)
    (h : ruleOf i (accept s) = .ok u) : u.err = false ∧ u.errcode = 0 := by
  by_cases hi : i = .clrerr
  · subst hi; cases h; exact ⟨rfl, rfl⟩
  · obtain ⟨he, hc⟩ := (ruleOf_writesOnlyColumns h).error hi
    have herr := err_of_passes hp hi
    exact ⟨he.trans herr, hc.trans (by simpa [herr] using hs)⟩

/-- Settles O31: an ignored command changes nothing, one that fails only records its error, and one that completes
writes what its rule writes. -/
theorem commandsWriteOnlyTheirRegisters : Obligations.CommandsWriteOnlyTheirRegisters := by
  unfold Obligations.CommandsWriteOnlyTheirRegisters
  intro i s t h
  have hf := exec_frame h
  refine ⟨by rw [hf], by rw [hf], by rw [hf], by rw [hf], by rw [hf], by rw [hf], by rw [hf], by rw [hf], by rw [hf],
    by rw [hf], by rw [hf], ?_⟩
  rw [exec_eq_gate] at h
  rcases gate_cases h with ⟨-, rfl⟩ | ⟨-, u, hu, rfl⟩ | ⟨hp, e, he, rfl⟩
  · exact ⟨fun _ => ⟨rfl, rfl⟩, fun _ => rfl, fun _ => rfl, fun _ => rfl, fun _ => .inl ⟨rfl, rfl⟩⟩
  · obtain ⟨hout, hd, hx, hg, herr⟩ := ruleOf_writesOnlyColumns hu
    exact ⟨hout, hd, hx, hg, fun hi => .inl (herr hi)⟩
  · refine ⟨fun _ => ⟨rfl, rfl⟩, fun _ => rfl, fun _ => rfl, fun _ => rfl, fun hi => .inr ⟨?_, rfl, ?_⟩⟩
    · exact err_of_passes hp hi
    · exact errorCode_ne_zero e

end Sys2Proof.Machine

/-! ## The cursor stays in the grid (R30) -/

namespace Sys2Proof.Machine

theorem cursorOk_congr {s t : State} (hx : t.widx = s.widx) (hw : t.width = s.width) (hh : t.height = s.height)
    (h : cursorOk s) : cursorOk t := by
  simpa only [cursorOk, channelCount, pixelCount, hx, hw, hh] using h

theorem cursorOk_of_widx_zero {s : State} (h : s.widx = 0) : cursorOk s := by simp [cursorOk, h]

/-- Putting the cursor at a channel index up to the length of the traversal: no wrap, because that length lies below
2^34. -/
theorem cursorOk_setCursor {s : State} {i : Nat} (h : i ≤ channelCount s) : cursorOk (setCursor i s) := by
  have hlt := channelCount_lt s
  have hi : (setCursor i s).widx.toNat = i := by
    rw [setCursor_widx, BitVec.toNat_ofNat, Nat.mod_eq_of_lt (by omega)]
  rw [cursorOk, hi]
  exact h

/-- Only WRESET, WNEXT, ENCODE and DECODE move the cursor, each to a channel index of the grid or its end. -/
theorem ruleOf_cursorOk {i : Instr} {s u : State} (h : ruleOf i s = .ok u) (hs : cursorOk s) : cursorOk u := by
  by_cases hi : i ∈ [Instr.wreset, .wnext, .encode, .decode]
  · simp only [List.mem_cons, List.not_mem_nil, or_false] at hi
    rcases hi with rfl | rfl | rfl | rfl
    · obtain rfl := wresetRule_ok.1 h; exact cursorOk_setCursor (Nat.zero_le _)
    · obtain rfl := wnextRule_ok.1 h
      split
      · next hv => exact cursorOk_setCursor (of_decide_eq_true hv)
      · exact hs
    · obtain ⟨-, -, dv, -, rfl⟩ := encodeRule_ok.1 h; exact cursorOk_setCursor (le_refl _)
    · obtain ⟨-, -, dv, -, rfl⟩ := decodeRule_ok.1 h; exact cursorOk_setCursor (le_refl _)
  · have hf := ruleOf_frame h
    exact cursorOk_congr ((ruleOf_writesOnlyColumns h).widx hi) (by rw [hf]) (by rw [hf]) hs

theorem issue_cursorOk {v : PortWord} {s t : State} (h : issue v s = .next t) (hs : cursorOk s) : cursorOk t := by
  rcases issue_next_cases h with rfl | ⟨i, u, -, hu, rfl⟩ | ⟨c, e, -, rfl⟩
  · exact hs
  · have hu' : cursorOk u := ruleOf_cursorOk hu (cursorOk_congr rfl rfl rfl hs)
    exact cursorOk_congr rfl rfl rfl hu'
  · exact cursorOk_congr rfl rfl rfl hs

theorem endCommand_cursorOk {s t : State} (h : endCommand s = .next t) (hs : cursorOk s) : cursorOk t := by
  rcases endCommand_cases h with ⟨-, rfl⟩ | ⟨-, hi⟩
  · exact hs
  · exact issue_cursorOk hi (cursorOk_congr rfl rfl rfl hs)

/-- A write of WIDTH or HEIGHT changes the bound and resets the cursor (R35); no other register moves either. -/
theorem writeReg_cursorOk {s : State} (v : PortWord) (r : Reg) (hs : cursorOk s) : cursorOk (writeReg s v r) := by
  cases r with
  | width | height => exact cursorOk_of_widx_zero rfl
  | _ => exact cursorOk_congr rfl rfl rfl hs

theorem regWriteMove_cursorOk {s : State} (n : Nat) (v : PortWord) (hs : cursorOk s) :
    cursorOk (regWriteMove n v s) := by
  rcases regWriteMove_cases n v s with h | h | ⟨r, h⟩ <;> rw [h]
  · exact hs
  · rcases openCommand_cases v s with h | ⟨-, -, h⟩ <;> rw [h]
    · exact hs
    · exact cursorOk_congr rfl rfl rfl hs
  · exact writeReg_cursorOk v r hs

/-- Settles O59, by the cases of a step: each command and each register write keeps the bound of R30. -/
theorem stepKeepsCursorInGrid : Obligations.StepKeepsCursorInGrid := by
  unfold Obligations.StepKeepsCursorInGrid
  intro s t hs h
  obtain ⟨r, ⟨ms, rfl⟩, hc⟩ := step_next_cases h
  have hr : cursorOk { s with moves := ms } := cursorOk_congr rfl rfl rfl hs
  rcases hc with he | ⟨v, hi⟩ | ⟨n, v, rfl⟩ | hf | ⟨u, rfl⟩
  · exact endCommand_cursorOk he hr
  · exact issue_cursorOk hi hr
  · exact regWriteMove_cursorOk n v hr
  · rw [hf]; exact cursorOk_congr rfl rfl rfl hr
  · exact cursorOk_of_widx_zero rfl

end Sys2Proof.Machine

/-! ## The flags stay consistent (R23, R32) -/

namespace Sys2Proof.Machine

theorem flagsOk_congr {s t : State} (hd : t.done = s.done) (he : t.err = s.err) (hc : t.errcode = s.errcode)
    (h : flagsOk s) : flagsOk t := by
  simpa only [flagsOk, hd, he, hc] using h

theorem flagsOk_of_clear {s : State} (he : s.err = false) (hc : s.errcode = 0) : flagsOk s := by simp [flagsOk, he, hc]

theorem flagsOk_raiseError (e : ErrorKind) (s : State) : flagsOk (raiseError e s) := by
  have hc : errorCode e ≠ 0 := errorCode_ne_zero e
  exact ⟨by simp, by simpa using hc⟩

theorem runningOk_congr {s t : State} (hb : t.busy = s.busy) (hd : t.done = s.done) (he : t.err = s.err)
    (ho : t.runningOp = s.runningOp) (h : runningOk s) : runningOk t := by
  simpa only [runningOk, hb, hd, he, ho] using h

theorem runningOk_of_idle {s : State} (hb : s.busy = false) (ho : s.runningOp = 0) : runningOk s := by
  simp [runningOk, hb, ho]

/-- The opcode kept is 0 on an idle block, and a whole command leaves it so, with BUSY = 0. -/
theorem issue_flagsOk {v : PortWord} {s t : State} (h : issue v s = .next t) (hf : flagsOk s) (hr : runningOk s) :
    flagsOk t ∧ runningOk t := by
  rcases issue_next_cases h with rfl | ⟨i, u, hp, hu, rfl⟩ | ⟨c, e, hp, rfl⟩
  · exact ⟨hf, hr⟩
  · obtain ⟨he, hc⟩ := ruleOf_clear hp hf.2 hu
    have ho : u.runningOp = s.runningOp := by rw [ruleOf_frame hu]; rfl
    exact ⟨flagsOk_of_clear he hc, runningOk_of_idle rfl (ho.trans (hr.2 hp.1))⟩
  · exact ⟨flagsOk_raiseError e _, runningOk_of_idle rfl (hr.2 hp.1)⟩

theorem endCommand_flagsOk {s t : State} (h : endCommand s = .next t) (hf : flagsOk s) (hr : runningOk s) :
    flagsOk t ∧ runningOk t := by
  rcases endCommand_cases h with ⟨-, rfl⟩ | ⟨-, hi⟩
  · exact ⟨hf, hr⟩
  · exact issue_flagsOk hi (flagsOk_congr rfl rfl rfl hf) (runningOk_of_idle rfl rfl)

/-- A command opens its BUSY window with DONE = 0, and with ERR = 1 only if it is CLRERR (R91). -/
theorem openCommand_flagsOk {s : State} (v : PortWord) (hf : flagsOk s) (hr : runningOk s) :
    flagsOk (openCommand v s) ∧ runningOk (openCommand v s) := by
  rcases openCommand_cases v s with h | ⟨-, hop, h⟩ <;> rw [h]
  · exact ⟨hf, hr⟩
  · exact ⟨⟨by simp, hf.2⟩, fun _ => ⟨rfl, hop⟩, fun hb => absurd hb (by simp)⟩

theorem writeReg_flagsOk {s : State} (v : PortWord) (r : Reg) (hf : flagsOk s) (hr : runningOk s) :
    flagsOk (writeReg s v r) ∧ runningOk (writeReg s v r) := by
  cases r <;> exact ⟨flagsOk_congr rfl rfl rfl hf, runningOk_congr rfl rfl rfl rfl hr⟩

theorem regWriteMove_flagsOk {s : State} (n : Nat) (v : PortWord) (hf : flagsOk s) (hr : runningOk s) :
    flagsOk (regWriteMove n v s) ∧ runningOk (regWriteMove n v s) := by
  rcases regWriteMove_cases n v s with h | h | ⟨r, h⟩ <;> rw [h]
  · exact ⟨hf, hr⟩
  · exact openCommand_flagsOk v hf hr
  · exact writeReg_flagsOk v r hf hr

/-- Settles O60, by the cases of a step; the opcode of the running command is part of the invariant. -/
theorem stepKeepsFlagsConsistent : Obligations.StepKeepsFlagsConsistent := by
  unfold Obligations.StepKeepsFlagsConsistent
  intro s t hf hr h
  obtain ⟨r, ⟨ms, rfl⟩, hc⟩ := step_next_cases h
  have hf' : flagsOk { s with moves := ms } := flagsOk_congr rfl rfl rfl hf
  have hr' : runningOk { s with moves := ms } := runningOk_congr rfl rfl rfl rfl hr
  rcases hc with he | ⟨v, hi⟩ | ⟨n, v, rfl⟩ | hp | ⟨u, rfl⟩
  · exact endCommand_flagsOk he hf' hr'
  · exact issue_flagsOk hi hf' hr'
  · exact regWriteMove_flagsOk n v hf' hr'
  · rw [hp]; exact ⟨flagsOk_congr rfl rfl rfl hf', runningOk_congr rfl rfl rfl rfl hr'⟩
  · exact ⟨flagsOk_of_clear rfl rfl, runningOk_of_idle rfl rfl⟩

end Sys2Proof.Machine

/-! ## The register port of an idle block (R22, R31, R34, R35) -/

namespace Sys2Proof.Machine

theorem regOfNumber_of_ge {n : Nat} (h : 0x0E ≤ n) : regOfNumber n = none := by
  obtain ⟨k, rfl⟩ := Nat.exists_eq_add_of_le' h
  rfl

theorem takeMove_regWrite_idle {s : State} {n : Nat} {r : Reg} (hb : s.busy = false) (hn : regOfNumber n = some r)
    (hr : r ≠ .cmd) (v : PortWord) : takeMove (.regWrite n v) s = .next (writeReg s v r) := by
  cases r with
  | cmd => exact absurd rfl hr
  | _ => simp [takeMove, regWriteMove, hb, hn]

theorem takeMove_regWrite_unassigned {s : State} {n : Nat} (hn : regOfNumber n = none) (v : PortWord) :
    takeMove (.regWrite n v) s = .next s := by
  simp [takeMove, regWriteMove, hn]

theorem takeMove_regRead_idle {s : State} {n : Nat} {r : Reg} (hb : s.busy = false) (hn : regOfNumber n = some r) :
    takeMove (.regRead n) s = .next { s with lastRead := readReg s r } := by
  simp [takeMove, regReadMove, hb, hn, reply]

theorem takeMove_regRead_unassigned {s : State} {n : Nat} (hb : s.busy = false) (hn : regOfNumber n = none) :
    takeMove (.regRead n) s = .next { s with lastRead := 0 } := by
  simp [takeMove, regReadMove, hb, hn, reply]

/-- Settles O50: each register write of an idle block is the store of `writeReg`, or ignored. -/
theorem registerWrites : Obligations.RegisterWrites := by
  unfold Obligations.RegisterWrites
  intro s v hb
  have stores : ∀ (n : Nat) (r : Reg), regOfNumber n = some r → r ≠ .cmd →
      takeMove (.regWrite n v) s = .next (writeReg s v r) := fun _ _ hn hr => takeMove_regWrite_idle hb hn hr v
  refine ⟨stores 0x03 .nbits rfl (by decide), stores 0x04 .width rfl (by decide), stores 0x05 .height rfl (by decide),
    stores 0x06 .srcLen rfl (by decide), stores 0x08 .dIn rfl (by decide), fun n hn => ?_,
    fun n hn => takeMove_regWrite_unassigned (regOfNumber_of_ge hn) v⟩
  simp only [List.mem_cons, List.not_mem_nil, or_false] at hn
  rcases hn with rfl | rfl | rfl | rfl | rfl | rfl | rfl | rfl
  · exact stores 0x01 .status rfl (by decide)
  · exact stores 0x02 .errcode rfl (by decide)
  · exact stores 0x07 .dstLen rfl (by decide)
  · exact stores 0x09 .dOut rfl (by decide)
  · exact stores 0x0A .widx rfl (by decide)
  · exact stores 0x0B .wx rfl (by decide)
  · exact stores 0x0C .wy rfl (by decide)
  · exact stores 0x0D .wc rfl (by decide)

/-! ### What each register reads as -/

theorem setWidth_statusWord_idle {s : State} (hb : s.busy = false) :
    (statusWord s).setWidth 40 =
      BitVec.ofNat 40 (2 * s.done.toNat + 4 * s.err.toNat + 8 * (if s.widx.toNat < channelCount s then 1 else 0)) := by
  rw [statusWord, wvalid, hb]
  by_cases hv : s.widx.toNat < channelCount s <;> cases s.done <;> cases s.err <;> simp [hv]

theorem cursorColumn_lt (s : State) : cursorColumn s < 2 ^ 16 := by
  unfold cursorColumn
  split
  · decide
  · next hw =>
    have hpos : 0 < s.width.toNat := Nat.pos_of_ne_zero fun h => hw (BitVec.eq_of_toNat_eq h)
    exact (Nat.mod_lt _ hpos).trans s.width.isLt

theorem cursorColumn_eq (s : State) :
    cursorColumn s = if s.width.toNat = 0 then 0 else s.widx.toNat / 3 % s.width.toNat := by
  simp only [cursorColumn, BitVec.toNat_eq]; rfl

theorem cursorRow_eq (s : State) :
    cursorRow s = if s.width.toNat = 0 then 0 else s.widx.toNat / 3 / s.width.toNat := by
  simp only [cursorRow, BitVec.toNat_eq]; rfl

/-- Under the bound of R30 the row is at most HEIGHT, so the view keeps all of it. -/
theorem cursorRow_lt {s : State} (hc : cursorOk s) : cursorRow s < 2 ^ 16 := by
  unfold cursorRow
  split
  · decide
  · have hle : s.widx.toNat / 3 ≤ s.height.toNat * s.width.toNat := Nat.div_le_of_le_mul hc
    exact (Nat.div_le_of_le_mul (by rwa [Nat.mul_comm])).trans_lt s.height.isLt

/-- Settles O51: each register's value fits the register, so its read gives the value itself; for the two views of the
cursor that rests on the bound of R30. -/
theorem registerReads : Obligations.RegisterReads := by
  unfold Obligations.RegisterReads
  intro s hb hc reads i w h
  have reads_of : ∀ {n x : Nat} (r : Reg), regOfNumber n = some r → readReg s r = BitVec.ofNat 40 x → reads n x := by
    intro n x r hn hx
    exact (takeMove_regRead_idle hb hn).trans (by rw [hx])
  refine ⟨reads_of .cmd rfl rfl, reads_of .status rfl (setWidth_statusWord_idle hb),
    reads_of .errcode rfl (BitVec.ofNat_toNat 40 _).symm, reads_of .nbits rfl (BitVec.ofNat_toNat 40 _).symm,
    reads_of .width rfl (BitVec.ofNat_toNat 40 _).symm, reads_of .height rfl (BitVec.ofNat_toNat 40 _).symm,
    reads_of .srcLen rfl ?_, reads_of .dstLen rfl ?_, reads_of .dIn rfl (BitVec.ofNat_toNat 40 _).symm,
    reads_of .dOut rfl (BitVec.ofNat_toNat 40 _).symm, reads_of .widx rfl ?_, reads_of .wx rfl ?_,
    reads_of .wy rfl ?_, reads_of .wc rfl ?_, fun n hn => takeMove_regRead_unassigned hb (regOfNumber_of_ge hn)⟩
  · simp [readReg]
  · simp [readReg]
  · simp [readReg, i]
  · rw [readReg, BitVec.setWidth_ofNat_of_le_of_lt (by decide) (cursorColumn_lt s), cursorColumn_eq]
  · rw [readReg, BitVec.setWidth_ofNat_of_le_of_lt (by decide) (cursorRow_lt hc), cursorRow_eq]
  · exact BitVec.setWidth_ofNat_of_le_of_lt (by decide) (by omega)

/-! ### The busy window (R38, R245) -/

theorem takeMove_regWrite_busy {s : State} (hb : s.busy = true) (n : Nat) (v : PortWord) :
    takeMove (.regWrite n v) s = .next s := by
  simp [takeMove, regWriteMove, hb]

theorem memoryMove_busy {s : State} (hb : s.busy = true) (move : State → State) :
    memoryMove move s = .refused .hostMemoryWhileBusy := by
  simp [memoryMove, hb]

/-- A busy STATUS word: bit 0 is 1, bits 1 to 3 are any value `v` has, and the rest are 0 (log entry 6). -/
theorem busyStatus_bounds (v : PortWord) :
    ((v &&& 0xE) ||| 1).getLsbD 0 = true ∧ ((v &&& 0xE) ||| 1).toNat < 16 := by
  refine ⟨by simp, ?_⟩
  rw [BitVec.toNat_or, BitVec.toNat_and]
  exact Nat.or_lt_two_pow (n := 4) (Nat.and_lt_two_pow _ (by decide)) (by decide)

/-- Settles O52: each kind of host access on a busy block, by the clause of R38 or R245 that shuts it out. -/
theorem busyWindowShutsTheHostOut : Obligations.BusyWindowShutsTheHostOut := by
  unfold Obligations.BusyWindowShutsTheHostOut
  intro s hb
  refine ⟨takeMove_regWrite_busy hb, fun n => ⟨regReadMove n s, rfl, ?_, ?_⟩, fun a b => memoryMove_busy hb _,
    fun a w => memoryMove_busy hb _, fun a => ⟨memoryMove_busy hb _, memoryMove_busy hb _, memoryMove_busy hb _⟩⟩
  · rcases regReadMove_cases n s with ⟨v, h⟩ | ⟨f, h⟩ <;> rw [h] <;> rfl
  · rintro rfl
    have h : regReadMove 0x01 s = replyFree (fun v => (v &&& 0xE) ||| 1) s := by simp [regReadMove, hb]
    rw [h]
    exact busyStatus_bounds _

end Sys2Proof.Machine

/-! ## Reset (R39, R235) -/

namespace Sys2Proof.Machine

/-- Settles O55. With no entry written every read falls through to its free value; on an idle block the reset input is
`resetRegisters`. -/
theorem resetLeavesResetValues : Obligations.ResetLeavesResetValues := by
  unfold Obligations.ResetLeavesResetValues
  refine ⟨fun p => ⟨rfl, rfl, rfl, rfl, rfl, rfl, rfl, rfl, rfl, rfl, rfl, rfl, rfl, rfl, rfl, rfl, rfl,
    fun k => ⟨rfl, rfl, rfl⟩⟩, fun s hb => ⟨resetRegisters s, ?_, ?_⟩⟩
  · simp [takeMove, resetMove, hb]
  · rw [resetRegisters, hb]

/-- Nothing is written, the cursor is at 0, no flag is set and no command runs. -/
theorem resetWith_invariants (p : Params) :
    memoriesOk (State.resetWith p) ∧ cursorOk (State.resetWith p) ∧ flagsOk (State.resetWith p) ∧
      runningOk (State.resetWith p) :=
  ⟨resetWith_memories_wf p, cursorOk_of_widx_zero rfl, flagsOk_of_clear rfl rfl, runningOk_of_idle rfl rfl⟩

/-- Settles O57: the reset state is `State.resetWith` at one choice of depths. -/
theorem resetMeetsInvariants : Obligations.ResetMeetsInvariants :=
  ⟨resetWith_invariants, resetWith_invariants Config.params⟩

end Sys2Proof.Machine

/-! ## Alpha is never read (R42)

Two states that differ in the alphas of their grids only run every rule side by side: the checks do not look at the grid
at all, and what is computed from it is computed from its colours. -/

namespace Sys2Proof.Machine

/-- Two grids whose pixels have the same red, green and blue. -/
def sameColours (m n : Memory Pixel) : Prop :=
  ∀ p, (gridPixel n p).r = (gridPixel m p).r ∧ (gridPixel n p).g = (gridPixel m p).g ∧
    (gridPixel n p).b = (gridPixel m p).b

theorem chan_of_sameColours {m n : Memory Pixel} (h : sameColours m n) (p : Nat) (c : Channel) :
    chan (gridPixel n p) c = chan (gridPixel m p) c := by
  obtain ⟨hr, hg, hb⟩ := h p
  cases c with
  | red => exact hr
  | green => exact hg
  | blue => exact hb

theorem gridValues_of_sameColours {m n : Memory Pixel} (h : sameColours m n) (w count : Nat) :
    gridValues n w count = gridValues m w count := by
  simp only [gridValues, chan_of_sameColours h]

/-- Embedding into one channel keeps the colours equal: each colour of the new pixel is a function of the old ones. -/
theorem sameColours_embedAt {m n : Memory Pixel} (h : sameColours m n) (i : Nat) (d : Byte) (w : Nat) :
    sameColours (embedAt m i d w) (embedAt n i d w) := by
  intro p
  obtain ⟨hr, hg, hb⟩ := h p
  rw [gridPixel_embedAt, gridPixel_embedAt]
  by_cases hp : p = pixelOf i
  · rw [if_pos hp, if_pos hp]
    cases channelOf i <;> simp [embedPixel, hr, hg, hb]
  · rw [if_neg hp, if_neg hp]
    exact ⟨hr, hg, hb⟩

theorem sameColours_embedAll {m n : Memory Pixel} (h : sameColours m n) (dv : List Byte) (w count : Nat) :
    sameColours (embedAll m dv w count) (embedAll n dv w count) := by
  induction count with
  | zero => exact h
  | succ count ih =>
    rw [embedAll_succ, embedAll_succ]
    exact sameColours_embedAt ih _ _ _

/-- Two states equal but for the alphas of their grids. -/
def sameButAlpha (s t : State) : Prop := t = { s with grid := t.grid } ∧ sameColours s.grid t.grid

/-- Two rules' answers: the same error, or states equal but for alphas. -/
def answersAlike : Except ErrorKind State → Except ErrorKind State → Prop
  | .ok u, .ok v => sameButAlpha u v
  | .error e, .error f => e = f
  | _, _ => False

/-- The same check guards both answers. -/
theorem answersAlike_ite {c : Prop} [Decidable c] {a a' b b' : Except ErrorKind State} (ha : answersAlike a a')
    (hb : answersAlike b b') : answersAlike (if c then a else b) (if c then a' else b') := by
  by_cases hc : c
  · rwa [if_pos hc, if_pos hc]
  · rwa [if_neg hc, if_neg hc]

theorem ruleOf_answersAlike (i : Instr) {s t : State} (h : sameButAlpha s t) :
    answersAlike (ruleOf i s) (ruleOf i t) := by
  obtain ⟨ht, hc⟩ := h
  generalize t.grid = g at ht hc
  subst ht
  cases i with
  | nop => exact ⟨rfl, hc⟩
  | tobits | frombits => exact answersAlike_ite ⟨rfl, hc⟩ rfl
  | group | ungroup => exact answersAlike_ite rfl (answersAlike_ite ⟨rfl, hc⟩ rfl)
  | embed => exact answersAlike_ite rfl (answersAlike_ite ⟨rfl, sameColours_embedAt hc _ _ _⟩ rfl)
  | extract =>
    refine answersAlike_ite rfl (answersAlike_ite ⟨?_, hc⟩ rfl)
    simp only [readGrid, chan_of_sameColours hc]; rfl
  | wreset => exact ⟨rfl, hc⟩
  | wnext => exact answersAlike_ite ⟨rfl, hc⟩ ⟨rfl, hc⟩
  | encode => exact answersAlike_ite rfl (answersAlike_ite ⟨rfl, sameColours_embedAll hc _ _ _⟩ rfl)
  | decode =>
    refine answersAlike_ite rfl (answersAlike_ite ⟨?_, hc⟩ rfl)
    simp only [gridValues_of_sameColours hc]; rfl
  | clrerr => exact ⟨rfl, hc⟩

theorem gate_of_not_passes {c : Bool} {s : State} (h : ¬passes c s) (rule : State → Except ErrorKind State) :
    gate c rule s = .next s := by
  obtain ⟨t, ht⟩ := gate_answers c rule s
  rcases gate_cases ht with ⟨-, rfl⟩ | ⟨hp, -⟩ | ⟨hp, -⟩
  · exact ht
  · exact absurd hp h
  · exact absurd hp h

theorem sameButAlpha_accept {s t : State} (h : sameButAlpha s t) : sameButAlpha (accept s) (accept t) :=
  ⟨by rw [h.1]; rfl, h.2⟩

theorem sameButAlpha_complete {s t : State} (h : sameButAlpha s t) : sameButAlpha (complete s) (complete t) :=
  ⟨by rw [h.1]; rfl, h.2⟩

theorem sameButAlpha_raiseError (e : ErrorKind) {s t : State} (h : sameButAlpha s t) :
    sameButAlpha (raiseError e s) (raiseError e t) :=
  ⟨by rw [h.1]; rfl, h.2⟩

/-- The gate decides by BUSY and ERR, which agree, and the rules it runs answer alike. -/
theorem exec_sameButAlpha (i : Instr) {s t : State} (h : sameButAlpha s t) :
    ∃ s' t', exec i s = .next s' ∧ exec i t = .next t' ∧ sameButAlpha s' t' := by
  have hacc : sameButAlpha (accept s) (accept t) := sameButAlpha_accept h
  have hpass : passes (clears i) t ↔ passes (clears i) s := by rw [h.1]
  rw [exec_eq_gate, exec_eq_gate]
  by_cases hp : passes (clears i) s
  · have hrule := ruleOf_answersAlike i hacc
    rw [gate_of_passes hp, gate_of_passes (hpass.2 hp)]
    cases hu : ruleOf i (accept s) <;> cases hv : ruleOf i (accept t) <;> rw [hu, hv] at hrule
    case ok.ok u v => exact ⟨_, _, rfl, rfl, sameButAlpha_complete hrule⟩
    case error.error e f =>
      obtain rfl : e = f := hrule
      exact ⟨_, _, rfl, rfl, sameButAlpha_raiseError e hacc⟩
    case ok.error | error.ok => exact hrule.elim
  · exact ⟨s, t, gate_of_not_passes hp _, gate_of_not_passes (hpass.not.2 hp) _, h⟩

/-- Settles O34: the two states are equal but for alphas, and so are the states the command leaves. -/
theorem alphaIsNeverRead : Obligations.AlphaIsNeverRead := by
  unfold Obligations.AlphaIsNeverRead
  intro i s t ht hc
  obtain ⟨s', t', hs', ht', heq, hcol⟩ := exec_sameButAlpha i (s := s) (t := t) ⟨ht, hc⟩
  exact ⟨s', t', hs', ht', heq, hcol⟩

end Sys2Proof.Machine

/-! ## A command as checks and an effect

Every rule is the N check, the range check and then an effect that cannot fail (R210, R211, R212). The checks are those
of Safety.lean and look at no memory; the effect stores a sequence in OBUF from entry 0 on and walks over GRID, so that
what a command reads and writes (R75) can be read off those two. -/

namespace Sys2Proof.Machine

/-- The sequence a command stores in OBUF. -/
def resultOf (i : Instr) (s : State) : List Byte :=
  match i with
  | .tobits => (toBits (inputSeq s s.srcLen.toNat)).map bitByte
  | .frombits => fromBits (inputBits s s.srcLen.toNat)
  | .group => group (inputBits s s.srcLen.toNat) (nOf s)
  | .ungroup => (ungroup (inputSeq s s.srcLen.toNat) (nOf s)).map bitByte
  | .decode => fromBits (ungroup (gridValues s.grid (nOf s) (channelCount s)) (nOf s))
  | .nop | .embed | .extract | .wreset | .wnext | .encode | .clrerr => []

/-- The grid a command leaves. -/
def gridAfter (i : Instr) (s : State) : Memory Pixel :=
  match i with
  | .embed => embedAt s.grid s.widx.toNat (s.dIn &&& loMask (nOf s)) (nOf s)
  | .encode => embedAll s.grid (messageValues (inputSeq s s.srcLen.toNat) (nOf s)) (nOf s) (channelCount s)
  | .nop | .tobits | .frombits | .group | .ungroup | .extract | .wreset | .wnext | .decode | .clrerr => s.grid

/-- The state a command leaves when its checks pass. -/
def effectOf (i : Instr) (s : State) : State :=
  match i with
  | .nop => s
  | .tobits | .frombits | .group | .ungroup => produce (resultOf i s) s
  | .embed => { s with grid := gridAfter i s }
  | .extract =>
    { s with dOut := extract (chan (readGrid s (pixelOf s.widx.toNat)) (channelOf s.widx.toNat)) (nOf s) }
  | .wreset => setCursor 0 s
  | .wnext => setCursor (if wvalid s then s.widx.toNat + 1 else s.widx.toNat) s
  | .encode => setCursor (channelCount s) { s with grid := gridAfter i s }
  | .decode => setCursor (channelCount s) (produce (resultOf i s) s)
  | .clrerr => clearError s

/-- Two lengths that fit, against the table of R211, which says that one of them does not. -/
theorem decide_le_and_le (a b c d : Nat) :
    (decide (a ≤ b) && decide (c ≤ d)) = !(decide (b < a) || decide (d < c)) := by
  simp only [Bool.not_or, ← decide_not, Nat.not_lt]

theorem decide_lt_and_lt (a b c d : Nat) :
    (decide (a < b) && decide (c < d)) = !(decide (b ≤ a) || decide (d ≤ c)) := by
  simp only [Bool.not_or, ← decide_not, Nat.not_le]

/-- A rule's branch on "it fits" is the branch on "it fails", the other way round. -/
theorem ite_ok_of_eq_not {fits fails : Bool} (h : fits = !fails) (u : State) (e : ErrorKind) :
    (if fits = true then Except.ok u else Except.error e) =
      if fails = true then Except.error e else Except.ok u := by
  subst h; cases fails <;> rfl

theorem setCursor_self (s : State) : setCursor s.widx.toNat s = s := by
  rw [setCursor, BitVec.ofNat_toNat, BitVec.setWidth_eq]

/-- Every rule: the N check of R210 where the command uses N, the range check of R211, the effect (R214). -/
theorem ruleOf_eq (i : Instr) (s : State) :
    ruleOf i s =
      if (usesN i && !validN (nOf s)) = true then .error .configurationError
      else if rangeFails i s = true then .error .rangeError
      else .ok (effectOf i s) := by
  have range {c : Bool} (h : c = !rangeFails i s) :=
    ite_ok_of_eq_not h (effectOf i s) .rangeError
  cases i with
  | nop | wreset | clrerr => rfl
  | wnext =>
    refine (?_ : wnextRule s = .ok (setCursor (if wvalid s then s.widx.toNat + 1 else s.widx.toNat) s))
    rw [wnextRule]
    split
    · rfl
    · rw [setCursor_self]
  | tobits | frombits => exact range (decide_le_and_le _ _ _ _)
  | group | ungroup | encode | decode =>
    exact congrArg (ite _ (Except.error ErrorKind.configurationError)) (range (decide_le_and_le _ _ _ _))
  | embed | extract =>
    exact congrArg (ite _ (Except.error ErrorKind.configurationError)) (range (decide_lt_and_lt _ _ _ _))

/-- A command that completes passed its range check and left its effect. -/
theorem ruleOf_ok {i : Instr} {s u : State} (h : ruleOf i s = .ok u) : rangeFails i s = false ∧ u = effectOf i s := by
  rw [ruleOf_eq] at h
  split at h
  · cases h
  · split at h
    · cases h
    · next hr => cases h; exact ⟨by simpa using hr, rfl⟩

/-! ### The memories after the effect -/

/-- The effect on the memories: IBUF and the depths stay, OBUF takes the result from entry 0 on, GRID is `gridAfter`. -/
theorem effectOf_memories (i : Instr) (s : State) :
    (effectOf i s).ibuf = s.ibuf ∧ (effectOf i s).obuf = Memory.setSeq s.obuf 0 (resultOf i s) ∧
      (effectOf i s).grid = gridAfter i s ∧ (effectOf i s).params = s.params := by
  cases i <;> exact ⟨rfl, rfl, rfl, rfl⟩

/-- The result is as long as the write set of R75. -/
@[simp] theorem length_resultOf (i : Instr) (s : State) : (resultOf i s).length = obufWrites i s := by
  cases i with
  | tobits | frombits | ungroup => simp [resultOf, obufWrites, nOf]
  | group => simp [resultOf, obufWrites, nOf, ceilDiv]
  | decode => simp [resultOf, obufWrites, nOf, channelCount, pixelCount, Nat.mul_comm]
  | nop | embed | extract | wreset | wnext | encode | clrerr => rfl

/-- What OBUF reads as after the effect: the result, and beyond it what stood there before. -/
theorem readObuf_effectOf (i : Instr) (s : State) (k : Nat) :
    readObuf (effectOf i s) k = (resultOf i s)[k]?.getD (readObuf s k) := by
  obtain ⟨-, ho, -, -⟩ := effectOf_memories i s
  rw [readObuf, ho]
  exact readObuf_produce (resultOf i s) s k

theorem readGrid_effectOf (i : Instr) (s : State) (p : Nat) :
    readGrid (effectOf i s) p = gridPixel (gridAfter i s) p := by
  obtain ⟨-, -, hg, -⟩ := effectOf_memories i s
  rw [readGrid, hg]

/-- Past its range check a command writes OBUF below its depth only. -/
theorem obufWrites_le_depth {i : Instr} {s : State} (h : rangeFails i s = false) :
    obufWrites i s ≤ s.params.obufDepth.val := by
  cases i with
  | tobits | frombits | group | ungroup | decode =>
    simp only [rangeFails, Bool.or_eq_false_iff, decide_eq_false_iff_not, Nat.not_lt] at h
    exact h.2
  | nop | embed | extract | wreset | wnext | encode | clrerr => exact Nat.zero_le _

/-- Past its range check a command writes GRID below its depth only. -/
theorem gridWrites_lt_depth {i : Instr} {s : State} {p : Nat} (h : rangeFails i s = false)
    (hp : gridWrites i s p = true) : p < s.params.gridDepth.val := by
  cases i with
  | embed =>
    obtain rfl : p = s.widx.toNat / 3 := beq_iff_eq.1 hp
    simp only [rangeFails, Bool.or_eq_false_iff, decide_eq_false_iff_not, Nat.not_le] at h
    exact h.2
  | encode =>
    simp only [rangeFails, Bool.or_eq_false_iff, decide_eq_false_iff_not, Nat.not_lt] at h
    exact (of_decide_eq_true hp).trans_le h.2
  | nop | tobits | frombits | group | ungroup | extract | wreset | wnext | decode | clrerr => cases hp

end Sys2Proof.Machine

/-! ## The memories stay canonical (R60, R76)

A command writes below the depths because its range check passed, a host write because it checks the entry number, and
an abandoned command writes at most what it would have written. -/

namespace Sys2Proof.Machine

theorem memoriesOk_congr {s t : State} (hi : t.ibuf = s.ibuf) (ho : t.obuf = s.obuf) (hg : t.grid = s.grid)
    (hp : t.params = s.params) (h : memoriesOk s) : memoriesOk t := by
  simpa only [memoriesOk, hi, ho, hg, hp] using h

/-- The grid a command leaves is canonical when its write set lies below the depth. -/
theorem gridAfter_wf {i : Instr} {s : State} {depth : Nat} (hw : ∀ p, gridWrites i s p = true → p < depth)
    (h : Memory.wf depth s.grid) : Memory.wf depth (gridAfter i s) := by
  cases i with
  | embed => exact embedAt_wf h (hw _ (beq_self_eq_true _)) _ _
  | encode =>
    have hpix : pixelCount s ≤ depth :=
      Nat.le_of_not_lt fun hlt => Nat.lt_irrefl depth (hw depth (decide_eq_true hlt))
    exact embedAll_wf h _ _ (Nat.mul_le_mul_left 3 hpix)
  | nop | tobits | frombits | group | ungroup | extract | wreset | wnext | decode | clrerr => exact h

theorem effectOf_memoriesOk {i : Instr} {s : State} (hr : rangeFails i s = false) (hs : memoriesOk s) :
    memoriesOk (effectOf i s) ∧ (effectOf i s).params = s.params := by
  obtain ⟨hibuf, hobuf, hgrid⟩ := hs
  obtain ⟨hi, ho, hg, hp⟩ := effectOf_memories i s
  have hout : 0 + (resultOf i s).length ≤ s.params.obufDepth.val := by
    simpa using obufWrites_le_depth hr
  rw [memoriesOk, hi, ho, hg, hp]
  exact ⟨⟨hibuf, Memory.wf_setSeq _ hobuf hout, gridAfter_wf (fun p => gridWrites_lt_depth hr) hgrid⟩, rfl⟩

theorem issue_memoriesOk {v : PortWord} {s t : State} (h : issue v s = .next t) (hs : memoriesOk s) :
    memoriesOk t ∧ t.params = s.params := by
  rcases issue_next_cases h with rfl | ⟨i, u, -, hu, rfl⟩ | ⟨c, e, -, rfl⟩
  · exact ⟨hs, rfl⟩
  · obtain ⟨hr, rfl⟩ := ruleOf_ok hu
    exact effectOf_memoriesOk hr hs
  · exact ⟨hs, rfl⟩

theorem endCommand_memoriesOk {s t : State} (h : endCommand s = .next t) (hs : memoriesOk s) :
    memoriesOk t ∧ t.params = s.params := by
  rcases endCommand_cases h with ⟨-, rfl⟩ | ⟨-, hi⟩
  · exact ⟨hs, rfl⟩
  · exact issue_memoriesOk (s := { s with busy := false, runningOp := 0 }) hi hs

/-- No register write touches a memory or a depth. -/
theorem regWriteMove_memories (n : Nat) (v : PortWord) (s : State) :
    (regWriteMove n v s).ibuf = s.ibuf ∧ (regWriteMove n v s).obuf = s.obuf ∧
      (regWriteMove n v s).grid = s.grid ∧ (regWriteMove n v s).params = s.params := by
  rcases regWriteMove_cases n v s with h | h | ⟨r, h⟩ <;> rw [h]
  · exact ⟨rfl, rfl, rfl, rfl⟩
  · rcases openCommand_cases v s with h | ⟨-, -, h⟩ <;> rw [h] <;> exact ⟨rfl, rfl, rfl, rfl⟩
  · cases r <;> exact ⟨rfl, rfl, rfl, rfl⟩

theorem ibufWriteMove_memoriesOk (a : Nat) (b : Byte) {s : State} (hs : memoriesOk s) :
    memoriesOk (ibufWriteMove a b s) := by
  unfold ibufWriteMove
  split
  · next ha => exact ⟨Memory.wf_set hs.1 ha b, hs.2⟩
  · exact hs

theorem gridWriteMove_memoriesOk (a : Nat) (w : PixelWord) {s : State} (hs : memoriesOk s) :
    memoriesOk (gridWriteMove a w s) := by
  obtain ⟨hibuf, hobuf, hgrid⟩ := hs
  unfold gridWriteMove
  split
  · next ha => exact ⟨hibuf, hobuf, Memory.wf_set hgrid ha _⟩
  · exact ⟨hibuf, hobuf, hgrid⟩

/-- A mix of the old memories and those the command would have left lists only entries of the latter. -/
theorem abandonCommand_memoriesOk {s : State} (hs : memoriesOk s) :
    memoriesOk (abandonCommand s) ∧ (abandonCommand s).params = s.params := by
  obtain ⟨t, ht⟩ := endCommand_answers s
  obtain ⟨⟨-, hobuf, hgrid⟩, hp⟩ := endCommand_memoriesOk ht hs
  rw [hp] at hobuf hgrid
  rw [abandonCommand, ht]
  have hobuf' := mixBytes_wf (fun k => Config.abandonWrote s.freeDraw k 0) s.obuf hobuf
  have hgrid' := mixPixels_wf (Config.abandonWrote s.freeDraw) s.grid hgrid
  exact ⟨⟨hs.1, hobuf', hgrid'⟩, rfl⟩

theorem resetMove_memoriesOk {s : State} (hs : memoriesOk s) :
    memoriesOk (resetMove s) ∧ (resetMove s).params = s.params := by
  unfold resetMove
  split
  · exact abandonCommand_memoriesOk hs
  · exact ⟨hs, rfl⟩

/-! ### The host's reads -/

/-- A host read gives the host a value and does nothing else: either the value read or a free one. -/
abbrev replies (s t : State) : Prop := (∃ v, t = reply v s) ∨ ∃ f, t = replyFree f s

theorem replies_ite (c : Prop) [Decidable c] (v : PortWord) (f : PortWord → PortWord) (s : State) :
    replies s (if c then reply v s else replyFree f s) := by
  split
  · exact .inl ⟨v, rfl⟩
  · exact .inr ⟨f, rfl⟩

theorem ibufReadMove_replies (a : Nat) (s : State) : replies s (ibufReadMove a s) := replies_ite _ _ _ _
theorem obufReadMove_replies (a : Nat) (s : State) : replies s (obufReadMove a s) := replies_ite _ _ _ _
theorem gridReadMove_replies (a : Nat) (s : State) : replies s (gridReadMove a s) := replies_ite _ _ _ _

theorem memoriesOk_of_replies {s t : State} (h : replies s t) (hs : memoriesOk s) :
    memoriesOk t ∧ t.params = s.params := by
  rcases h with ⟨v, rfl⟩ | ⟨f, rfl⟩ <;> exact ⟨hs, rfl⟩

theorem takeMove_memoriesOk {m : HostMove} {s t : State} (h : takeMove m s = .next t) (hs : memoriesOk s) :
    memoriesOk t ∧ t.params = s.params := by
  rcases takeMove_cases h with he | ⟨v, -, hi⟩ | ⟨n, v, rfl⟩ | ⟨n, rfl⟩ | ⟨a, b, -, rfl⟩ | ⟨a, -, rfl⟩ |
    ⟨a, -, rfl⟩ | ⟨a, w, -, rfl⟩ | ⟨a, -, rfl⟩ | rfl
  · exact endCommand_memoriesOk he hs
  · exact issue_memoriesOk hi hs
  · obtain ⟨hi, ho, hg, hp⟩ := regWriteMove_memories n v s
    exact ⟨memoriesOk_congr hi ho hg hp hs, hp⟩
  · exact memoriesOk_of_replies (regReadMove_cases n s) hs
  · exact ⟨ibufWriteMove_memoriesOk a b hs, by rw [ibufWriteMove_portFrame a b s]⟩
  · exact memoriesOk_of_replies (ibufReadMove_replies a s) hs
  · exact memoriesOk_of_replies (obufReadMove_replies a s) hs
  · exact ⟨gridWriteMove_memoriesOk a w hs, by rw [gridWriteMove_portFrame a w s]⟩
  · exact memoriesOk_of_replies (gridReadMove_replies a s) hs
  · exact resetMove_memoriesOk hs

/-- Settles O58, by the cases of a step: the end of the running command, or the host's next move. -/
theorem stepKeepsMemoriesCanonical : Obligations.StepKeepsMemoriesCanonical := by
  unfold Obligations.StepKeepsMemoriesCanonical
  intro s t hs h
  rcases step_cases h with ⟨-, he⟩ | ⟨m, rest, -, hm⟩
  · exact endCommand_memoriesOk he hs
  · exact takeMove_memoriesOk (s := { s with moves := rest }) hm hs

end Sys2Proof.Machine

/-! ## The entries each command writes and reads (R75) -/

namespace Sys2Proof.Machine

/-- Acceptance changes neither the read nor the write sets. -/
@[simp] theorem ibufReads_accept (i : Instr) (s : State) : ibufReads i (accept s) = ibufReads i s := by
  cases i <;> rfl
@[simp] theorem gridReads_accept (i : Instr) (s : State) (p : Nat) : gridReads i (accept s) p = gridReads i s p := by
  cases i <;> rfl
@[simp] theorem obufWrites_accept (i : Instr) (s : State) : obufWrites i (accept s) = obufWrites i s := by
  cases i <;> rfl
@[simp] theorem gridWrites_accept (i : Instr) (s : State) (p : Nat) :
    gridWrites i (accept s) p = gridWrites i s p := by
  cases i <;> rfl

/-! ### Writes -/

/-- Outside the write set the grid a command leaves holds what it held before. -/
theorem gridPixel_gridAfter_of_not_written {i : Instr} {s : State} {p : Nat} (h : gridWrites i s p = false) :
    gridPixel (gridAfter i s) p = readGrid s p := by
  cases i with
  | embed =>
    have hp : p ≠ pixelOf s.widx.toNat := ne_of_beq_false h
    exact (gridPixel_embedAt _ _ _ _ _).trans (if_neg hp)
  | encode =>
    have hp : pixelCount s ≤ p := Nat.not_lt.1 (of_decide_eq_false h)
    have hr : ¬3 * p < channelCount s := by unfold channelCount; omega
    have hg : ¬3 * p + 1 < channelCount s := by unfold channelCount; omega
    have hb : ¬3 * p + 2 < channelCount s := by unfold channelCount; omega
    rw [gridAfter, gridPixel_embedAll, if_neg hr, if_neg hg, if_neg hb, if_neg hr, readGrid]
  | nop | tobits | frombits | group | ungroup | extract | wreset | wnext | decode | clrerr => rfl

/-- Settles O32: a command that is ignored or fails writes no entry, and the effect of one that completes stores its
result and walks the grid inside the write set. -/
theorem commandsWriteOnlyTheirEntries : Obligations.CommandsWriteOnlyTheirEntries := by
  unfold Obligations.CommandsWriteOnlyTheirEntries
  intro i s t h
  rw [exec_eq_gate] at h
  rcases gate_cases h with ⟨-, rfl⟩ | ⟨-, u, hu, rfl⟩ | ⟨-, e, -, rfl⟩
  · exact ⟨fun _ => rfl, fun _ _ => rfl, fun _ _ => rfl⟩
  · obtain ⟨-, rfl⟩ := ruleOf_ok hu
    refine ⟨fun k => ?_, fun k hk => ?_, fun p hp => ?_⟩
    · have hi : (effectOf i (accept s)).ibuf = s.ibuf := (effectOf_memories i (accept s)).1
      rw [readIbuf, complete_ibuf, hi, readIbuf]
    · have hlen : (resultOf i (accept s)).length ≤ k := by simpa using hk
      refine (readObuf_effectOf i (accept s) k).trans ?_
      rw [List.getElem?_eq_none hlen]
      rfl
    · refine (readGrid_effectOf i (accept s) p).trans ?_
      exact gridPixel_gridAfter_of_not_written (by simpa using hp)
  · exact ⟨fun _ => rfl, fun _ _ => rfl, fun _ _ => rfl⟩

/-! ### Reads -/

/-- Two states equal but for memory contents that the command does not read. -/
structure AgreeOnReads (i : Instr) (s t : State) : Prop where
  frame : t = { s with ibuf := t.ibuf, obuf := t.obuf, grid := t.grid }
  ibuf : ∀ k, k < ibufReads i s → readIbuf t k = readIbuf s k
  grid : ∀ p, gridReads i s p = true → readGrid t p = readGrid s p

theorem AgreeOnReads.accept {i : Instr} {s t : State} (h : AgreeOnReads i s t) :
    AgreeOnReads i (Machine.accept s) (Machine.accept t) where
  frame := by rw [h.frame]; rfl
  ibuf k hk := h.ibuf k (by simpa using hk)
  grid p hp := h.grid p (by simpa using hp)

theorem inputSeq_congr {s t : State} {n : Nat} (h : ∀ k, k < n → readIbuf t k = readIbuf s k) :
    inputSeq t n = inputSeq s n :=
  List.map_congr_left fun k hk => h k (List.mem_range.1 hk)

theorem packBits_congr {n : Nat} {f g : Nat → Bool} (h : ∀ j, j < n → f j = g j) : packBits n f = packBits n g :=
  List.foldl_ext _ _ _ fun v j hj => by rw [h j (List.mem_range.1 hj)]

theorem getD_inputBits (s : State) {n k : Nat} (h : k < n) :
    (inputBits s n).getD k false = entryBit (readIbuf s k) := by
  simp [inputBits, inputSeq, h]

/-- `fromBits` drops a trailing partial byte, so the entries from 8 × (n div 8) on do not matter (R111). -/
theorem fromBits_inputBits_congr {s t : State} {n : Nat} (h : ∀ k, k < 8 * (n / 8) → readIbuf t k = readIbuf s k) :
    fromBits (inputBits t n) = fromBits (inputBits s n) := by
  unfold fromBits
  rw [length_inputBits, length_inputBits]
  refine List.map_congr_left fun k hk => packBits_congr fun j hj => ?_
  have hk' : k < n / 8 := List.mem_range.1 hk
  rw [getD_inputBits t (by omega), getD_inputBits s (by omega), h _ (by omega)]

theorem gridValues_congr {m m' : Memory Pixel} {n pixels : Nat}
    (h : ∀ p, p < pixels → gridPixel m' p = gridPixel m p) :
    gridValues m' n (3 * pixels) = gridValues m n (3 * pixels) :=
  List.map_congr_left fun i hi => by
    rw [h (pixelOf i) (Nat.div_lt_of_lt_mul (List.mem_range.1 hi))]

/-- The result depends on the memories through the read set alone. -/
theorem resultOf_congr {i : Instr} {s t : State} (h : AgreeOnReads i s t) : resultOf i t = resultOf i s := by
  obtain ⟨ht, hi, hg⟩ := h
  generalize t.ibuf = a, t.obuf = b, t.grid = c at ht
  subst ht
  cases i with
  | tobits | group | ungroup =>
    have hin := inputSeq_congr (n := s.srcLen.toNat) hi
    simp only [resultOf, inputBits, nOf, hin]
  | frombits => exact fromBits_inputBits_congr (n := s.srcLen.toNat) hi
  | decode =>
    exact congrArg (fun l => fromBits (ungroup l (nOf s)))
      (gridValues_congr fun p hp => hg p (decide_eq_true hp))
  | nop | embed | extract | wreset | wnext | encode | clrerr => rfl

/-- A pixel the command writes depends on the memories through the read set alone. -/
theorem gridPixel_gridAfter_congr {i : Instr} {s t : State} (h : AgreeOnReads i s t) {p : Nat}
    (hp : gridWrites i s p = true) : gridPixel (gridAfter i t) p = gridPixel (gridAfter i s) p := by
  obtain ⟨ht, hi, hg⟩ := h
  generalize t.ibuf = a, t.obuf = b, t.grid = c at ht
  subst ht
  cases i with
  | embed =>
    have hpix : gridPixel c p = gridPixel s.grid p := hg p hp
    simp only [gridAfter, gridPixel_embedAt, hpix]; rfl
  | encode =>
    have hpix : gridPixel c p = gridPixel s.grid p := hg p hp
    have hin := inputSeq_congr (n := s.srcLen.toNat) hi
    simp only [gridAfter, gridPixel_embedAll, hpix, hin]; rfl
  | nop | tobits | frombits | group | ungroup | extract | wreset | wnext | decode | clrerr => cases hp

/-- The registers and flags of the effect depend on the memories through the read set alone. -/
theorem effectOf_frame_congr {i : Instr} {s t : State} (h : AgreeOnReads i s t) :
    effectOf i t = { effectOf i s with
      ibuf := (effectOf i t).ibuf, obuf := (effectOf i t).obuf, grid := (effectOf i t).grid } := by
  have hout := resultOf_congr h
  obtain ⟨ht, hi, hg⟩ := h
  generalize t.ibuf = a, t.obuf = b, t.grid = c at ht
  subst ht
  cases i with
  | tobits | frombits | group | ungroup | decode => simp only [effectOf, hout]; rfl
  | extract =>
    have hpix : gridPixel c (pixelOf s.widx.toNat) = gridPixel s.grid (pixelOf s.widx.toNat) :=
      hg _ (beq_self_eq_true _)
    simp only [effectOf, readGrid, hpix]; rfl
  | nop | embed | wreset | wnext | encode | clrerr => rfl

/-- The checks of R210 and R211 look at no memory, so both runs fail alike or both take effect. -/
theorem ruleOf_congr {i : Instr} {s t : State} (h : AgreeOnReads i s t) :
    (∃ e, ruleOf i s = .error e ∧ ruleOf i t = .error e) ∨
    (ruleOf i s = .ok (effectOf i s) ∧ ruleOf i t = .ok (effectOf i t)) := by
  have hn : nOf t = nOf s := by rw [h.frame]; rfl
  have hr : rangeFails i t = rangeFails i s := by rw [h.frame]; cases i <;> rfl
  rw [ruleOf_eq, ruleOf_eq, hn, hr]
  split
  · exact .inl ⟨_, rfl, rfl⟩
  · split
    · exact .inl ⟨_, rfl, rfl⟩
    · exact .inr ⟨rfl, rfl⟩

/-- Settles O33: two accepted runs that agree on the read set fail alike or leave effects that agree. -/
theorem commandsReadOnlyTheirEntries : Obligations.CommandsReadOnlyTheirEntries := by
  unfold Obligations.CommandsReadOnlyTheirEntries
  intro i s t ⟨hb, he⟩ ht hi hg
  have h : AgreeOnReads i (accept s) (accept t) := AgreeOnReads.accept ⟨ht, hi, hg⟩
  have hps : passes (clears i) s := ⟨hb, by simp [he]⟩
  have hpt : passes (clears i) t := by rw [ht]; exact hps
  rw [exec_eq_gate, exec_eq_gate]
  rcases ruleOf_congr h with ⟨e, hs, ht'⟩ | ⟨hs, ht'⟩
  · refine ⟨_, _, gate_of_ready_error hps hs, gate_of_ready_error hpt ht', ?_, fun herr => by cases herr⟩
    rw [ht]; rfl
  · refine ⟨_, _, gate_of_ready_ok hps hs, gate_of_ready_ok hpt ht', ?_,
      fun _ => ⟨fun k hk => ?_, fun p hp => ?_⟩⟩
    · rw [effectOf_frame_congr h]; rfl
    · have hlen : k < (resultOf i (accept s)).length := by simpa using hk
      have hout : (resultOf i (accept s))[k]? = some (resultOf i (accept s))[k] := List.getElem?_eq_getElem hlen
      refine (readObuf_effectOf i (accept t) k).trans (Eq.trans ?_ (readObuf_effectOf i (accept s) k).symm)
      rw [resultOf_congr h, hout]; rfl
    · refine (readGrid_effectOf i (accept t) p).trans (Eq.trans ?_ (readGrid_effectOf i (accept s) p).symm)
      exact gridPixel_gridAfter_congr h (by simpa using hp)

end Sys2Proof.Machine

/-! ## The host's memory moves (R84, R76) and the silence of reads (R74) -/

namespace Sys2Proof.Machine

theorem memoryMove_idle {s : State} (hb : s.busy = false) (move : State → State) :
    memoryMove move s = .next (move s) := by
  simp [memoryMove, hb]

/-! ### Each move below and above its depth -/

section
variable {s : State} {a : Nat} (hb : s.busy = false)
include hb

theorem takeMove_ibufWrite_below (b : Byte) (ha : a < s.params.ibufDepth.val) :
    takeMove (.ibufWrite a b) s = .next { s with ibuf := Memory.set s.ibuf a b } :=
  (memoryMove_idle hb _).trans (congrArg Host.Outcome.next (if_pos ha))

theorem takeMove_ibufWrite_above (b : Byte) (ha : s.params.ibufDepth.val ≤ a) :
    takeMove (.ibufWrite a b) s = .next s :=
  (memoryMove_idle hb _).trans (congrArg Host.Outcome.next (if_neg (Nat.not_lt.2 ha)))

theorem takeMove_gridWrite_below (w : PixelWord) (ha : a < s.params.gridDepth.val) :
    takeMove (.gridWrite a w) s = .next { s with grid := Memory.set s.grid a (pixelOfWord w) } :=
  (memoryMove_idle hb _).trans (congrArg Host.Outcome.next (if_pos ha))

theorem takeMove_gridWrite_above (w : PixelWord) (ha : s.params.gridDepth.val ≤ a) :
    takeMove (.gridWrite a w) s = .next s :=
  (memoryMove_idle hb _).trans (congrArg Host.Outcome.next (if_neg (Nat.not_lt.2 ha)))

theorem takeMove_ibufRead_below (ha : a < s.params.ibufDepth.val) :
    takeMove (.ibufRead a) s = .next { s with lastRead := (readIbuf s a).setWidth 40 } :=
  (memoryMove_idle hb _).trans (congrArg Host.Outcome.next (if_pos ha))

theorem takeMove_obufRead_below (ha : a < s.params.obufDepth.val) :
    takeMove (.obufRead a) s = .next { s with lastRead := (readObuf s a).setWidth 40 } :=
  (memoryMove_idle hb _).trans (congrArg Host.Outcome.next (if_pos ha))

theorem takeMove_gridRead_below (ha : a < s.params.gridDepth.val) :
    takeMove (.gridRead a) s = .next { s with lastRead := (wordOfPixel (readGrid s a)).setWidth 40 } :=
  (memoryMove_idle hb _).trans (congrArg Host.Outcome.next (if_pos ha))

end

/-- Concatenation puts the left word above the right one. -/
theorem toNat_append_add {m n : Nat} (x : BitVec m) (y : BitVec n) :
    (x ++ y).toNat = x.toNat * 2 ^ n + y.toNat := by
  rw [BitVec.toNat_append, ← Nat.shiftLeft_add_eq_or_of_lt y.isLt, Nat.shiftLeft_eq]

/-- The packing of R64 as a sum. -/
theorem toNat_wordOfPixel (q : Pixel) :
    (wordOfPixel q).toNat = q.r.toNat * 2 ^ 24 + q.g.toNat * 2 ^ 16 + q.b.toNat * 2 ^ 8 + q.a.toNat := by
  simp only [wordOfPixel, toNat_append_add]
  omega

/-- Settles O53: each move below its depth is one memory operation or one reply, and a write above it is ignored. -/
theorem hostMemoryMoves : Obligations.HostMemoryMoves := by
  unfold Obligations.HostMemoryMoves
  intro s a b w hb
  refine ⟨fun ha => ⟨⟨_, takeMove_ibufWrite_below hb b ha, rfl, fun k => ?_⟩, takeMove_ibufRead_below hb ha⟩,
    takeMove_ibufWrite_above hb b, takeMove_obufRead_below hb,
    fun ha => ⟨⟨_, takeMove_gridWrite_below hb w ha, rfl, fun k => gridPixel_set _ _ _ _⟩,
      ⟨_, takeMove_gridRead_below hb ha, rfl, ?_⟩⟩,
    takeMove_gridWrite_above hb w⟩
  · rw [readIbuf, Memory.get?_set]
    split <;> rfl
  · rw [← toNat_wordOfPixel]
    exact BitVec.toNat_setWidth_of_le (by decide)

/-! ### Reads -/

/-- Whatever the host reads, the move only replies. -/
theorem takeMove_read_replies {m : HostMove} {a : Nat} {s t : State}
    (hm : m ∈ [HostMove.regRead a, .ibufRead a, .obufRead a, .gridRead a]) (h : takeMove m s = .next t) :
    replies s t := by
  have memory : ∀ {move : State → State}, replies s (move s) → memoryMove move s = .next t → replies s t := by
    intro move hr he
    rcases memoryMove_cases move s with ⟨-, hi⟩ | ⟨-, hi⟩ <;> rw [hi] at he <;> cases he
    exact hr
  simp only [List.mem_cons, List.not_mem_nil, or_false] at hm
  rcases hm with rfl | rfl | rfl | rfl
  · cases h; exact regReadMove_cases a s
  · exact memory (ibufReadMove_replies a s) h
  · exact memory (obufReadMove_replies a s) h
  · exact memory (gridReadMove_replies a s) h

/-- No register shows what the host last read. -/
theorem readReg_lastRead (s : State) (v : PortWord) (r : Reg) : readReg { s with lastRead := v } r = readReg s r := by
  cases r <;> rfl

theorem takeMove_regRead_repeats {n : Nat} {s t : State} (hb : s.busy = false) (h : takeMove (.regRead n) s = .next t) :
    takeMove (.regRead n) t = .next t := by
  cases hn : regOfNumber n with
  | none =>
    rw [takeMove_regRead_unassigned hb hn] at h
    cases h
    exact takeMove_regRead_unassigned hb hn
  | some r =>
    rw [takeMove_regRead_idle hb hn] at h
    cases h
    have hsame : readReg { s with lastRead := readReg s r } r = readReg s r := readReg_lastRead s _ r
    refine (takeMove_regRead_idle (s := { s with lastRead := readReg s r }) hb hn).trans ?_
    rw [hsame]

/-- Settles O54: a read changes only the reply, and on an idle block the reply depends on nothing a read changes. -/
theorem readsHaveNoSideEffect : Obligations.ReadsHaveNoSideEffect := by
  unfold Obligations.ReadsHaveNoSideEffect
  intro s t m a hm h
  refine ⟨?_, fun hb hbelow => ?_⟩
  · rcases takeMove_read_replies hm h with ⟨v, rfl⟩ | ⟨f, rfl⟩ <;> rfl
  · rcases hbelow with rfl | ⟨rfl, ha⟩ | ⟨rfl, ha⟩ | ⟨rfl, ha⟩
    · exact takeMove_regRead_repeats hb h
    · rw [takeMove_ibufRead_below hb ha] at h
      cases h
      exact takeMove_ibufRead_below hb ha
    · rw [takeMove_obufRead_below hb ha] at h
      cases h
      exact takeMove_obufRead_below hb ha
    · rw [takeMove_gridRead_below hb ha] at h
      cases h
      exact takeMove_gridRead_below hb ha

end Sys2Proof.Machine

/-! ## The opcode map and the command port (R90, R92, R94, R95)

Each row of the opcode map accepts exactly the opcode of its own command. So the decoder finds command `i` at the opcode
`encode i` and nowhere else, and it finds no command at any opcode above the last one, 0x0B. -/

namespace Sys2Proof.Machine

/-- Every row of R92 compares all eight bits with the opcode of its command. -/
theorem opcodeMap_rows : ∀ row ∈ opcodeMap, row.mask = BitVec.allOnes 8 ∧ row.pattern = encode row.command := by
  decide

theorem opRow_accepts_iff {row : OpRow} (hrow : row ∈ opcodeMap) (op : Byte) :
    row.accepts op = true ↔ op = encode row.command := by
  obtain ⟨hmask, hpattern⟩ := opcodeMap_rows row hrow
  rw [OpRow.accepts, hmask, hpattern, BitVec.and_allOnes, beq_iff_eq]

theorem encode_toNat_le (i : Instr) : (encode i).toNat ≤ 0x0B := by
  cases i <;> decide

@[simp] theorem decodeOp_encode (i : Instr) : decodeOp (encode i) = .command i := by
  cases i <;> decide

/-- R95: every opcode is the opcode of a command, or it decodes as illegal. -/
theorem decodeOp_cases (op : Byte) : (∃ i, op = encode i) ∨ decodeOp op = .illegal op := by
  unfold decodeOp
  cases hfind : opcodeMap.find? (fun row => row.accepts op) with
  | some row =>
    have haccepts : row.accepts op = true := by simpa using List.find?_some hfind
    exact .inl ⟨row.command, (opRow_accepts_iff (List.mem_of_find?_eq_some hfind) op).1 haccepts⟩
  | none => exact .inr rfl

theorem eq_encode_of_decodeOp {op : Byte} {i : Instr} (h : decodeOp op = .command i) : op = encode i := by
  rcases decodeOp_cases op with ⟨j, rfl⟩ | hillegal
  · rw [decodeOp_encode] at h
    cases h
    rfl
  · rw [hillegal] at h
    cases h

theorem decodeOp_of_ge {op : Byte} (h : 0x0C ≤ op.toNat) : decodeOp op = .illegal op := by
  rcases decodeOp_cases op with ⟨i, rfl⟩ | hillegal
  · have hle := encode_toNat_le i
    omega
  · exact hillegal

/-- Settles O1: the twelve opcodes are those of `encode`, and no row of the map reaches above them. -/
theorem decoderIsTheOpcodeMap : Obligations.DecoderIsTheOpcodeMap := by
  unfold Obligations.DecoderIsTheOpcodeMap
  exact ⟨decodeOp_encode .nop, decodeOp_encode .tobits, decodeOp_encode .frombits, decodeOp_encode .group,
    decodeOp_encode .ungroup, decodeOp_encode .embed, decodeOp_encode .extract, decodeOp_encode .wreset,
    decodeOp_encode .wnext, decodeOp_encode .encode, decodeOp_encode .decode, decodeOp_encode .clrerr,
    fun _ => decodeOp_of_ge⟩

/-- Settles O2: the decoder finds a command at its opcode, and a row of the map accepts no other. -/
theorem decodeInvertsEncode : Obligations.DecodeInvertsEncode := by
  unfold Obligations.DecodeInvertsEncode
  exact ⟨decodeOp_encode, fun _ _ => eq_encode_of_decodeOp⟩

/-! ### A write to CMD sees the opcode alone (R90) -/

theorem issue_eq_of_opOfPort_eq {v w : PortWord} (h : opOfPort v = opOfPort w) (s : State) : issue v s = issue w s := by
  rw [issue, issue, h]

theorem openCommand_eq_of_opOfPort_eq {v w : PortWord} (h : opOfPort v = opOfPort w) (s : State) :
    openCommand v s = openCommand w s := by
  rw [openCommand, openCommand, h]

theorem takeMove_cmd_busy {s : State} (hb : s.busy = true) (v : PortWord) : takeMove (.cmd v) s = endCommand s :=
  if_pos hb

theorem takeMove_cmd_idle {s : State} (hb : s.busy = false) (v : PortWord) : takeMove (.cmd v) s = issue v s :=
  if_neg (by simp [hb])

theorem takeMove_regWrite_cmd_idle {s : State} (hb : s.busy = false) (v : PortWord) :
    takeMove (.regWrite 0x00 v) s = .next (openCommand v s) :=
  congrArg Host.Outcome.next (if_neg (by simp [hb]))

/-- Settles O3: on a busy block the value written to CMD plays no part; on an idle one both forms of the write go
through its opcode. -/
theorem upperCommandBitsIgnored : Obligations.UpperCommandBitsIgnored := by
  unfold Obligations.UpperCommandBitsIgnored
  intro s v w h
  cases hb : s.busy with
  | true =>
    rw [takeMove_cmd_busy hb, takeMove_cmd_busy hb, takeMove_regWrite_busy hb, takeMove_regWrite_busy hb]
    exact ⟨rfl, rfl⟩
  | false =>
    rw [takeMove_cmd_idle hb, takeMove_cmd_idle hb, takeMove_regWrite_cmd_idle hb, takeMove_regWrite_cmd_idle hb,
      issue_eq_of_opOfPort_eq h, openCommand_eq_of_opOfPort_eq h]
    exact ⟨rfl, rfl⟩

/-! ### An illegal opcode (R94) -/

theorem issue_of_illegal {v : PortWord} {op : Byte} (h : decodeOp (opOfPort v) = .illegal op) (s : State) :
    issue v s = illegalCommand s := by
  rw [issue, h]

theorem raiseError_accept_idle {s : State} (hb : s.busy = false) (e : ErrorKind) :
    raiseError e (accept s) = { s with done := false, err := true, errcode := errorCode e } := by
  rw [raiseError_accept, ← hb]

theorem illegalCommand_of_ready {s : State} (h : ready s) :
    illegalCommand s = .next { s with done := false, err := true, errcode := 3 } := by
  obtain ⟨hb, he⟩ := h
  rw [illegalCommand, gate_of_ready_error ⟨hb, fun herr => absurd herr (by simp [he])⟩ rfl, raiseError_accept_idle hb,
    errorCode]

/-- Settles O26: an opcode above 0x0B decodes to none, so the ready block raises IllegalCommand. -/
theorem illegalOpcodeRaisesIllegalCommand : Obligations.IllegalOpcodeRaisesIllegalCommand := by
  unfold Obligations.IllegalOpcodeRaisesIllegalCommand
  intro s v hready hop
  calc takeMove (.cmd v) s
      _ = issue v s := takeMove_cmd_idle hready.1 v
      _ = illegalCommand s := issue_of_illegal (decodeOp_of_ge hop) s
      _ = .next { s with done := false, err := true, errcode := 3 } := illegalCommand_of_ready hready

end Sys2Proof.Machine

/-! ## The bits of a byte and the value of packed bits (R67, R110, R111) -/

namespace Sys2Proof.Machine

theorem shiftRight_and_one (x : Byte) (i : Nat) : (x >>> i) &&& 1 = bitByte (x.getLsbD i) := by
  have h : (x >>> i).getLsbD 0 = x.getLsbD i := BitVec.getLsbD_ushiftRight x i 0
  rw [bitByte, ← h]
  exact BitVec.and_one_eq_setWidth_ofBool_getLsbD

theorem bitByte_beq_one (b : Bool) : (bitByte b == 1) = b := by cases b <;> decide

/-- A byte is its eight bits packed, most significant first. -/
theorem packBits_getLsbD (x : Byte) : packBits 8 (fun j => x.getLsbD (7 - j)) = x := by
  refine BitVec.eq_of_getLsbD_eq fun b hb => ?_
  have hbit : 7 - (8 - 1 - b) = b := by omega
  rw [getLsbD_packBits (le_refl 8), hbit]
  simp [hb]

theorem toNat_packBits_lt {n : Nat} (hn : n ≤ 8) (bit : Nat → Bool) : (packBits n bit).toNat < 2 ^ n := by
  refine Nat.lt_pow_two_of_testBit _ fun b hb => ?_
  rw [BitVec.testBit_toNat, getLsbD_packBits hn, decide_eq_false (by omega), Bool.false_and]

theorem mod_two_pow_eq_sum_testBit (x n : Nat) :
    x % 2 ^ n = ∑ i ∈ Finset.range n, (x.testBit i).toNat * 2 ^ i := by
  induction n with
  | zero => simp [Nat.mod_one]
  | succ n ih => rw [Finset.sum_range_succ, ← ih, Nat.mod_pow_succ, Nat.toNat_testBit, Nat.mul_comm]

/-- The value of `n` packed bits: bit `j` of the sequence weighs 2^(n − 1 − j) (R67). -/
theorem toNat_packBits {n : Nat} (hn : n ≤ 8) (bit : Nat → Bool) :
    (packBits n bit).toNat = ∑ j ∈ Finset.range n, (bit j).toNat * 2 ^ (n - 1 - j) := by
  calc (packBits n bit).toNat
      _ = (packBits n bit).toNat % 2 ^ n := (Nat.mod_eq_of_lt (toNat_packBits_lt hn bit)).symm
      _ = ∑ b ∈ Finset.range n, (bit (n - 1 - b)).toNat * 2 ^ b := by
        rw [mod_two_pow_eq_sum_testBit]
        refine Finset.sum_congr rfl fun b hb => ?_
        rw [BitVec.testBit_toNat, getLsbD_packBits hn, decide_eq_true (Finset.mem_range.1 hb), Bool.true_and]
      _ = ∑ j ∈ Finset.range n, (bit j).toNat * 2 ^ (n - 1 - j) := by
        rw [← Finset.sum_range_reflect]
        refine Finset.sum_congr rfl fun j hj => ?_
        have hback : n - 1 - (n - 1 - j) = j := by have := Finset.mem_range.1 hj; omega
        rw [hback]

end Sys2Proof.Machine

/-! ## toBits and fromBits (R110, R111, R114, R115) -/

namespace Sys2Proof.Machine

/-! ### Element by element -/

theorem getElem?_toBits (bytes : List Byte) {k j : Nat} (hj : j < 8) :
    (toBits bytes)[8 * k + j]? = bytes[k]?.map fun x => x.getLsbD (7 - j) := by
  rw [toBits, getElem?_flatMap_of_length (by simp) bytes hj]
  cases bytes[k]? with
  | none => rfl
  | some x => simp [hj]

theorem getD_toBits {bytes : List Byte} {k j : Nat} (hk : k < bytes.length) (hj : j < 8) :
    (toBits bytes).getD (8 * k + j) false = bytes[k].getLsbD (7 - j) := by
  rw [List.getD_eq_getElem?_getD, getElem?_toBits bytes hj, List.getElem?_eq_getElem hk]
  rfl

theorem getElem?_fromBits {bits : List Bool} {k : Nat} (hk : k < bits.length / 8) :
    (fromBits bits)[k]? = some (packBits 8 fun j => bits.getD (8 * k + j) false) := by
  simp [fromBits, hk]

/-- Settles O35: element 8 k + j lies in the piece of byte k, which holds its bits from the top. -/
theorem toBitsFormula : Obligations.ToBitsFormula := by
  unfold Obligations.ToBitsFormula
  refine fun bytes => ⟨length_toBits bytes, fun k j hk hj => ?_⟩
  rw [getElem?_toBits bytes (by omega), List.getElem?_eq_getElem hk, shiftRight_and_one, bitByte_beq_one]
  rfl

/-- Settles O36: byte k is eight bits packed, and the value of packed bits is their weighted sum. -/
theorem fromBitsFormula : Obligations.FromBitsFormula := by
  unfold Obligations.FromBitsFormula
  refine fun bits => ⟨length_fromBits bits, fun k hk => ?_⟩
  rw [getElem?_fromBits hk, Option.map_some, toNat_packBits (le_refl 8)]

/-! ### The laws -/

theorem toBits_append (a b : List Byte) : toBits (a ++ b) = toBits a ++ toBits b := List.flatMap_append

theorem fromBits_toBits (bytes : List Byte) : fromBits (toBits bytes) = bytes := by
  refine List.ext_getElem (by simp) fun k _ hk => ?_
  rw [List.getElem_eq_iff, getElem?_fromBits (by simpa using hk)]
  exact congrArg some ((packBits_congr fun j hj => getD_toBits hk hj).trans (packBits_getLsbD _))

/-- The other way round, what is lost is the trailing partial byte. -/
theorem toBits_fromBits (bits : List Bool) : toBits (fromBits bits) = bits.take (8 * (bits.length / 8)) := by
  refine List.ext_getElem? fun i => ?_
  obtain ⟨k, j, hj, rfl⟩ : ∃ k j, j < 8 ∧ i = 8 * k + j := ⟨i / 8, i % 8, by omega, by omega⟩
  rw [getElem?_toBits _ hj, List.getElem?_take]
  by_cases hk : k < bits.length / 8
  · have hi : 8 * k + j < bits.length := by omega
    have hback : 8 - 1 - (7 - j) = j := by omega
    rw [if_pos (by omega), getElem?_fromBits hk, Option.map_some, getLsbD_packBits (le_refl 8), hback,
      decide_eq_true (by omega), Bool.true_and, List.getD_eq_getElem _ _ hi, List.getElem?_eq_getElem hi]
  · rw [if_neg (by omega), List.getElem?_eq_none (by simpa using hk), Option.map_none]

/-- The trailing partial byte takes no part: both sides have the same bits (R111). -/
theorem fromBits_take (bits : List Bool) : fromBits (bits.take (8 * (bits.length / 8))) = fromBits bits := by
  rw [← toBits_fromBits, fromBits_toBits]

/-- Where the first sequence is whole bytes, the bytes of the second begin where it ends. -/
theorem fromBits_append {a : List Bool} (h : 8 ∣ a.length) (b : List Bool) :
    fromBits (a ++ b) = fromBits a ++ fromBits b := by
  have ha : toBits (fromBits a) = a := by rw [toBits_fromBits, List.take_of_length_le (by omega)]
  have htake : (a ++ b).take (8 * ((a ++ b).length / 8)) = a ++ b.take (8 * (b.length / 8)) := by
    have hlen : 8 * ((a ++ b).length / 8) = a.length + 8 * (b.length / 8) := by rw [List.length_append]; omega
    rw [hlen, List.take_length_add_append]
  calc fromBits (a ++ b)
      _ = fromBits (a ++ b.take (8 * (b.length / 8))) := by rw [← fromBits_take (a ++ b), htake]
      _ = fromBits (toBits (fromBits a ++ fromBits b)) := by rw [toBits_append, ha, toBits_fromBits]
      _ = fromBits a ++ fromBits b := fromBits_toBits _

/-- Settles O39: each law by its own lemma; dropping the partial byte follows from the two round-trips. -/
theorem bitStreamLaws : Obligations.BitStreamLaws := by
  unfold Obligations.BitStreamLaws
  exact ⟨fromBits_toBits, toBits_fromBits, fun bits => (fromBits_take bits).symm,
    fun a b => ⟨toBits_append a b, length_toBits a⟩, fun a b => ⟨length_fromBits a, fun h => fromBits_append h b⟩⟩

end Sys2Proof.Machine

/-! ## A command on a ready block: the two answers and the delivered result (R63, R91, R211)

TOBITS, FROMBITS, GROUP and UNGROUP differ in their result sequence alone; what the rest of the block sees of them is
said here once. -/

namespace Sys2Proof.Machine

theorem passes_of_ready {c : Bool} {s : State} (h : ready s) : passes c s := by
  obtain ⟨hb, he⟩ := h
  exact ⟨hb, fun herr => absurd herr (by simp [he])⟩

@[simp] theorem rangeFails_accept (i : Instr) (s : State) : rangeFails i (accept s) = rangeFails i s := by
  cases i <;> rfl

theorem complete_effectOf_accept (i : Instr) (s : State) :
    complete (effectOf i (accept s)) = complete (effectOf i s) := by
  cases i <;> rfl

section
variable {i : Instr} {s : State} (hready : ready s) (hn : (usesN i && !validN (nOf s)) = false)
include hready hn

/-- Past its checks a command on a ready block takes its effect and completes. -/
theorem exec_of_fits (hr : rangeFails i s = false) : exec i s = .next (complete (effectOf i s)) := by
  have hrule : ruleOf i (accept s) = .ok (effectOf i (accept s)) := by
    rw [ruleOf_eq, nOf_accept, rangeFails_accept, hn, hr]; rfl
  rw [exec_eq_gate, gate_of_ready_ok (passes_of_ready hready) hrule, complete_effectOf_accept]

/-- Past the N check a command whose range check fails raises RangeError and does nothing else (R211, R213). -/
theorem exec_of_rangeFails (hr : rangeFails i s = true) :
    exec i s = .next { s with done := false, err := true, errcode := 2 } := by
  have hrule : ruleOf i (accept s) = .error .rangeError := by
    rw [ruleOf_eq, nOf_accept, rangeFails_accept, hn, hr]; rfl
  rw [exec_eq_gate, gate_of_ready_error (passes_of_ready hready) hrule, raiseError_accept_idle hready.1, errorCode]

end

/-- `t` is `s` after a command delivered `out` to OBUF and DST_LEN, completed, and did nothing else (R63). -/
structure Delivered (out : List Byte) (s t : State) : Prop where
  frame : t = { s with obuf := t.obuf, dstLen := t.dstLen, done := true }
  dstLen : t.dstLen.toNat = out.length
  output : ∀ a, readObuf t a = out[a]?.getD (readObuf s a)

theorem delivered_complete_produce {out : List Byte} {s : State} (hb : s.busy = false)
    (hout : out.length ≤ s.params.obufDepth.val) : Delivered out s (complete (produce out s)) where
  frame := by rw [complete, produce, ← hb]
  dstLen := Nat.mod_eq_of_lt (hout.trans_lt s.params.obufDepth.isLt)
  output := readObuf_produce out s

/-- Past its checks a command whose whole effect is its result delivers it. -/
theorem exec_delivers {i : Instr} {s : State} (hready : ready s) (hn : (usesN i && !validN (nOf s)) = false)
    (hr : rangeFails i s = false) (hi : effectOf i s = produce (resultOf i s) s) :
    ∃ t, exec i s = .next t ∧ Delivered (resultOf i s) s t := by
  have hout : (resultOf i s).length ≤ s.params.obufDepth.val := by
    rw [length_resultOf]; exact obufWrites_le_depth hr
  exact ⟨_, exec_of_fits hready hn hr, hi ▸ delivered_complete_produce hready.1 hout⟩

namespace Delivered

variable {out : List Byte} {s t : State} (h : Delivered out s t)
include h

theorem readObuf_of_getElem? {a : Nat} {b : Byte} (hb : out[a]? = some b) : readObuf t a = b := by
  rw [h.output, hb]; rfl

theorem readObuf_of_le {a : Nat} (ha : out.length ≤ a) : readObuf t a = readObuf s a := by
  rw [h.output, List.getElem?_eq_none ha]; rfl

theorem map_readObuf : (List.range out.length).map (readObuf t) = out :=
  List.ext_getElem (by simp) fun a _ ha => by
    rw [List.getElem_map, List.getElem_range, h.readObuf_of_getElem? (List.getElem?_eq_getElem ha)]

end Delivered

end Sys2Proof.Machine

/-! ## TOBITS and FROMBITS (R112, R113) -/

namespace Sys2Proof.Machine

/-- Element 8 k + j of TOBITS's result is bit 7 − j of IBUF entry k, as a byte. -/
theorem getElem?_resultOf_tobits {s : State} {k j : Nat} (hk : k < s.srcLen.toNat) (hj : j < 8) :
    (resultOf .tobits s)[8 * k + j]? = some ((readIbuf s k >>> (7 - j)) &&& 1) := by
  rw [resultOf, List.getElem?_map, getElem?_toBits _ hj, getElem?_inputSeq s hk, shiftRight_and_one]
  rfl

theorem inputBits_eq (s : State) (n : Nat) : inputBits s n = (List.range n).map fun k => (readIbuf s k).getLsbD 0 :=
  List.map_map

/-- Settles O14: a result that fits is delivered, and element 8 k + j of it is the bit asked for. -/
theorem tobitsSerializesInput : Obligations.TobitsSerializesInput := by
  unfold Obligations.TobitsSerializesInput
  intro s hready
  refine ⟨fun hin hout => ?_, fun hfail => exec_of_rangeFails hready rfl (by simpa [rangeFails] using hfail)⟩
  have hfits : rangeFails .tobits s = false := by simp [rangeFails, hin, hout]
  have hlen : (resultOf .tobits s).length = 8 * s.srcLen.toNat := length_resultOf .tobits s
  obtain ⟨t, hexec, ht⟩ := exec_delivers hready rfl hfits rfl
  exact ⟨t, hexec, ht.frame, ht.dstLen.trans hlen,
    fun k j hk hj => ht.readObuf_of_getElem? (getElem?_resultOf_tobits hk (by omega)),
    fun a ha => ht.readObuf_of_le (hlen.trans_le ha)⟩

/-- Settles O15: a result that fits is delivered, and the input bits are bit 0 of each IBUF entry. -/
theorem frombitsDeserializesInput : Obligations.FrombitsDeserializesInput := by
  unfold Obligations.FrombitsDeserializesInput
  intro s hready
  refine ⟨fun hin hout => ?_, fun hfail => exec_of_rangeFails hready rfl (by simpa [rangeFails] using hfail)⟩
  have hfits : rangeFails .frombits s = false := by simp [rangeFails, hin, hout]
  have hlen : (resultOf .frombits s).length = s.srcLen.toNat / 8 := length_resultOf .frombits s
  obtain ⟨t, hexec, ht⟩ := exec_delivers hready rfl hfits rfl
  refine ⟨t, hexec, ht.frame, ht.dstLen.trans hlen, ?_, fun a ha => ht.readObuf_of_le (hlen.trans_le ha)⟩
  rw [← inputBits_eq, ← hlen]
  exact ht.map_readObuf

end Sys2Proof.Machine

/-! ## The four widths and their low mask (R10, R24, R210) -/

namespace Sys2Proof.Machine

theorem validN_iff_mem (n : Nat) : validN n = true ↔ n ∈ [1, 2, 4, 8] := by
  simp [validN_iff]

/-- Each of the four widths cuts a byte into `8 / n` whole fields. -/
theorem validN_mul_div {n : Nat} (h : validN n = true) : n * (8 / n) = 8 := by
  rcases (validN_iff n).1 h with rfl | rfl | rfl | rfl <;> rfl

/-- The mask keeps the bits below `n`. -/
theorem getLsbD_and_loMask {n b : Nat} (h : validN n = true) (hb : b < n) (v : Byte) :
    (v &&& loMask n).getLsbD b = v.getLsbD b := by
  rw [BitVec.getLsbD_and, getLsbD_loMask h, decide_eq_true hb, Bool.and_true]

/-- The low `n` bits of a byte packed, most significant first, are the byte masked to `n` bits. -/
theorem packBits_getLsbD_low {n : Nat} (h : validN n = true) (v : Byte) :
    packBits n (fun j => v.getLsbD (n - 1 - j)) = v &&& loMask n := by
  refine BitVec.eq_of_getLsbD_eq fun b _ => ?_
  rw [getLsbD_packBits (validN_pos h).2, BitVec.getLsbD_and, getLsbD_loMask h, Bool.and_comm]
  by_cases hb : b < n
  · rw [Nat.sub_sub_self (by omega)]
  · simp [hb]

end Sys2Proof.Machine

/-! ## group and ungroup (R120, R121, R127, R128) -/

namespace Sys2Proof.Machine

/-! ### Element by element -/

theorem getElem?_group {bits : List Bool} {n i : Nat} (hi : i < ceilDiv bits.length n) :
    (group bits n)[i]? = some (packBits n fun j => bits.getD (n * i + j) false) := by
  simp [group, hi]

theorem getElem?_ungroup (vals : List Byte) {n i j : Nat} (h : validN n = true) (hj : j < n) :
    (ungroup vals n)[n * i + j]? = vals[i]?.map fun v => v.getLsbD (n - 1 - j) := by
  rw [ungroup, getElem?_flatMap_of_length (by simp) vals hj]
  cases vals[i]? with
  | none => rfl
  | some v =>
    rw [Option.bind_some, List.getElem?_map, List.getElem?_range hj]
    exact congrArg some (getLsbD_and_loMask h (by omega) v)

theorem getD_ungroup (vals : List Byte) {n i j : Nat} (h : validN n = true) (hj : j < n) :
    (ungroup vals n).getD (n * i + j) false = (vals.getD i 0).getLsbD (n - 1 - j) := by
  rw [List.getD_eq_getElem?_getD, List.getD_eq_getElem?_getD, getElem?_ungroup vals h hj]
  cases vals[i]? with
  | none => exact BitVec.getLsbD_zero.symm
  | some v => rfl

/-- The bits of value `i`, packed again, are the value masked to `n` bits. -/
theorem packBits_ungroup (vals : List Byte) {n : Nat} (h : validN n = true) (i : Nat) :
    packBits n (fun j => (ungroup vals n).getD (n * i + j) false) = vals.getD i 0 &&& loMask n :=
  (packBits_congr fun _ hj => getD_ungroup vals h hj).trans (packBits_getLsbD_low h _)

/-- Settles O37: element i is N bits packed, so it is their weighted sum and has no bit from N on. -/
theorem groupFormula : Obligations.GroupFormula := by
  unfold Obligations.GroupFormula
  intro bits n hn
  have hle : n ≤ 8 := (validN_pos ((validN_iff_mem n).2 hn)).2
  refine ⟨length_group bits n, fun i hi => ?_, fun v hv => ?_⟩
  · rw [getElem?_group hi, Option.map_some, toNat_packBits hle]
  · obtain ⟨i, -, rfl⟩ := List.mem_map.1 hv
    exact toNat_packBits_lt hle _

/-- Settles O38: element N i + j lies in the piece of value i, whose bits below N the mask keeps. -/
theorem ungroupFormula : Obligations.UngroupFormula := by
  unfold Obligations.UngroupFormula
  intro vals n hn
  have hvalid := (validN_iff_mem n).2 hn
  refine ⟨length_ungroup vals n, fun i j hi hj => ?_⟩
  rw [getElem?_ungroup vals hvalid hj, List.getElem?_eq_getElem hi, shiftRight_and_one, bitByte_beq_one, ← loMask,
    getLsbD_and_loMask hvalid (by omega)]
  rfl

/-! ### Whole chunks -/

theorem ceilDiv_mul_add {n : Nat} (hn : 0 < n) (k m : Nat) : ceilDiv (n * k + m) n = k + ceilDiv m n := by
  have hshift : n * k + m + n - 1 = m + n - 1 + n * k := by omega
  rw [ceilDiv, hshift, Nat.add_mul_div_left _ _ hn, Nat.add_comm, ceilDiv]

theorem ceilDiv_mul {n : Nat} (hn : 0 < n) (k : Nat) : ceilDiv (n * k) n = k := by
  have hzero : ceilDiv 0 n = 0 := Nat.div_eq_of_lt (by omega)
  rw [← Nat.add_zero (n * k), ceilDiv_mul_add hn, hzero, Nat.add_zero]

/-- The zeros of R120 fill the last chunk. -/
theorem add_padding {n : Nat} (h : validN n = true) (m : Nat) : m + (n - m % n) % n = n * ceilDiv m n := by
  rcases (validN_iff n).1 h with rfl | rfl | rfl | rfl <;> rw [ceilDiv] <;> omega

theorem getD_append_replicate_false (bits : List Bool) (p i : Nat) :
    (bits ++ List.replicate p false).getD i false = bits.getD i false := by
  by_cases hi : i < bits.length
  · rw [List.getD_append _ _ _ _ hi]
  · rw [List.getD_append_right _ _ _ _ (by omega), List.getD_eq_getElem?_getD, List.getElem?_getD_replicate_default_eq,
      List.getD_eq_default _ _ (by omega)]

/-! ### The laws -/

/-- The round-trip with the zeros of the last chunk visible (R127, R128). -/
theorem ungroup_group (bits : List Bool) {n : Nat} (h : validN n = true) :
    ungroup (group bits n) n = bits ++ List.replicate ((n - bits.length % n) % n) false := by
  have hlen : (ungroup (group bits n) n).length =
      (bits ++ List.replicate ((n - bits.length % n) % n) false).length := by
    rw [length_ungroup, length_group, List.length_append, List.length_replicate, add_padding h]
  refine List.ext_getElem hlen fun i hi hi' => ?_
  have hk : i / n < ceilDiv bits.length n := Nat.div_lt_of_lt_mul (by simpa using hi)
  have hj : i % n < n := Nat.mod_lt i (validN_pos h).1
  have hback : n - 1 - (n - 1 - i % n) = i % n := by omega
  rw [← List.getD_eq_getElem _ false hi', getD_append_replicate_false, List.getElem_eq_iff]
  calc (ungroup (group bits n) n)[i]?
      _ = (ungroup (group bits n) n)[n * (i / n) + i % n]? := by rw [Nat.div_add_mod]
      _ = some ((packBits n fun j => bits.getD (n * (i / n) + j) false).getLsbD (n - 1 - i % n)) := by
        rw [getElem?_ungroup _ h hj, getElem?_group hk, Option.map_some]
      _ = some (bits.getD i false) := by
        rw [getLsbD_packBits (validN_pos h).2, hback, Nat.div_add_mod, decide_eq_true (by omega), Bool.true_and]

theorem ungroup_group_of_dvd {bits : List Bool} {n : Nat} (h : validN n = true) (hd : n ∣ bits.length) :
    ungroup (group bits n) n = bits := by
  rw [ungroup_group bits h, Nat.mod_eq_zero_of_dvd hd, Nat.sub_zero, Nat.mod_self, List.replicate_zero,
    List.append_nil]

theorem group_ungroup (vals : List Byte) {n : Nat} (h : validN n = true) :
    group (ungroup vals n) n = vals.map fun v => v &&& loMask n := by
  have hlen : ceilDiv (ungroup vals n).length n = vals.length := by rw [length_ungroup, ceilDiv_mul (validN_pos h).1]
  refine List.ext_getElem (by rw [length_group, hlen, List.length_map]) fun i _ hi => ?_
  rw [List.length_map] at hi
  rw [List.getElem_eq_iff, getElem?_group (hi.trans_eq hlen.symm), packBits_ungroup vals h, List.getElem_map,
    List.getD_eq_getElem _ _ hi]

/-- Where the first sequence is whole chunks, the chunks of the second begin where it ends. -/
theorem group_append {a : List Bool} {n : Nat} (hn : 0 < n) (hd : n ∣ a.length) (b : List Bool) :
    group (a ++ b) n = group a n ++ group b n := by
  obtain ⟨k, hk⟩ := hd
  rw [group, group, group, List.length_append, hk, ceilDiv_mul_add hn, ceilDiv_mul hn, List.range_add, List.map_append,
    List.map_map]
  congr 1
  · refine List.map_congr_left fun i hi => packBits_congr fun j hj => List.getD_append _ _ _ _ ?_
    rw [hk, Nat.mul_comm n k]
    exact Nat.mul_add_lt_mul_of_lt_of_lt (List.mem_range.1 hi) hj
  · refine List.map_congr_left fun i _ => packBits_congr fun j _ => ?_
    have hi : n * (k + i) + j = a.length + (n * i + j) := by rw [hk, Nat.mul_add]; omega
    rw [hi, List.getD_append_right _ _ _ _ (by omega), Nat.add_sub_cancel_left]

/-- Settles O40: each law by its own lemma; the round-trip is the padded one with nothing to pad. -/
theorem bitPackerLaws : Obligations.BitPackerLaws := by
  unfold Obligations.BitPackerLaws
  intro n hn
  have h := (validN_iff_mem n).2 hn
  exact ⟨fun _ => ungroup_group_of_dvd h, fun bits => ⟨length_group bits n, ungroup_group bits h⟩,
    fun vals => ⟨length_ungroup vals n, group_ungroup vals h⟩, fun _ b hd => group_append (validN_pos h).1 hd b⟩

end Sys2Proof.Machine

/-! ## The fields of a byte (R126) -/

namespace Sys2Proof.Machine

/-! ### Where field `f` of byte `k` stands -/

/-- Bit `j` of value `8 / n * k + f` is bit `n * f + j` of byte `k`, both counted from the top. -/
theorem field_index {n : Nat} (h : validN n = true) (k f j : Nat) : n * (8 / n * k + f) + j = 8 * k + (n * f + j) := by
  rw [Nat.mul_add, ← Nat.mul_assoc, validN_mul_div h, Nat.add_assoc]

theorem field_fits {n f : Nat} (h : validN n = true) (hf : f < 8 / n) : n * f + n ≤ 8 := by
  calc n * f + n ≤ n * (8 / n) := Nat.mul_le_mul_left n hf
    _ = 8 := validN_mul_div h

theorem length_group_toBits (bytes : List Byte) {n : Nat} (h : validN n = true) :
    (group (toBits bytes) n).length = 8 / n * bytes.length := by
  have hwhole : 8 * bytes.length = n * (8 / n * bytes.length) := by rw [← Nat.mul_assoc, validN_mul_div h]
  rw [length_group, length_toBits, hwhole, ceilDiv_mul (validN_pos h).1]

/-! ### Cutting a byte into its fields, and putting it together again -/

/-- A field of a byte is the byte shifted down to it and masked. -/
theorem getElem?_group_toBits {bytes : List Byte} {n k f : Nat} (h : validN n = true) (hk : k < bytes.length)
    (hf : f < 8 / n) :
    (group (toBits bytes) n)[8 / n * k + f]? = some ((bytes[k] >>> (8 - n - n * f)) &&& loMask n) := by
  have hfits := field_fits h hf
  have hlt : 8 / n * k + f < (group (toBits bytes) n).length := by
    rw [length_group_toBits bytes h, Nat.mul_comm _ bytes.length]
    exact Nat.mul_add_lt_mul_of_lt_of_lt hk hf
  rw [getElem?_group (hlt.trans_eq (length_group _ n)), ← packBits_getLsbD_low h]
  refine congrArg some (packBits_congr fun j hj => ?_)
  have hbit : 7 - (n * f + j) = 8 - n - n * f + (n - 1 - j) := by omega
  rw [field_index h, getD_toBits hk (by omega), BitVec.getLsbD_ushiftRight, hbit]

theorem sum_range_mul_eq_sum_sum (n q : Nat) (g : Nat → Nat) :
    ∑ i ∈ Finset.range (n * q), g i = ∑ f ∈ Finset.range q, ∑ j ∈ Finset.range n, g (n * f + j) := by
  induction q with
  | zero => rfl
  | succ q ih => rw [Nat.mul_succ, Finset.sum_range_add, ih, Finset.sum_range_succ]

/-- The value of eight packed bits from the values of their fields: field `f` stands above the `8 - n * (f + 1)` bits of
the fields after it. -/
theorem toNat_packBits_eq_sum_fields {n : Nat} (h : validN n = true) (bit : Nat → Bool) :
    (packBits 8 bit).toNat =
      ∑ f ∈ Finset.range (8 / n), (packBits n fun j => bit (n * f + j)).toNat * 2 ^ (8 - n * (f + 1)) := by
  have hsplit := sum_range_mul_eq_sum_sum n (8 / n) fun i => (bit i).toNat * 2 ^ (7 - i)
  rw [validN_mul_div h] at hsplit
  rw [toNat_packBits (le_refl 8), hsplit]
  refine Finset.sum_congr rfl fun f hf => ?_
  have hfits := field_fits h (Finset.mem_range.1 hf)
  rw [toNat_packBits (validN_pos h).2, Finset.sum_mul]
  refine Finset.sum_congr rfl fun j hj => ?_
  have hj := Finset.mem_range.1 hj
  have hweight : 7 - (n * f + j) = n - 1 - j + (8 - n * (f + 1)) := by rw [Nat.mul_succ]; omega
  rw [hweight, Nat.pow_add, Nat.mul_assoc]

/-- A byte put together from ungrouped values has the masked values for its fields. -/
theorem toNat_packBits_ungroup (vals : List Byte) {n : Nat} (h : validN n = true) (k : Nat) :
    (packBits 8 fun i => (ungroup vals n).getD (8 * k + i) false).toNat =
      ∑ f ∈ Finset.range (8 / n), (vals.getD (8 / n * k + f) 0 &&& loMask n).toNat * 2 ^ (8 - n * (f + 1)) := by
  rw [toNat_packBits_eq_sum_fields h]
  refine Finset.sum_congr rfl fun f _ => ?_
  rw [← packBits_ungroup vals h]
  simp only [field_index h]

/-! ### N = 8 -/

theorem and_loMask_eight (v : Byte) : v &&& loMask 8 = v := BitVec.and_allOnes

theorem ungroup_eight (bytes : List Byte) : ungroup bytes 8 = toBits bytes := by
  simp only [ungroup, and_loMask_eight, toBits]

theorem group_toBits_eight (bytes : List Byte) : group (toBits bytes) 8 = bytes := by
  rw [← ungroup_eight, group_ungroup bytes rfl]
  simp only [and_loMask_eight, List.map_id']

theorem fromBits_ungroup_eight (bytes : List Byte) : fromBits (ungroup bytes 8) = bytes := by
  rw [ungroup_eight, fromBits_toBits]

/-- Settles O41: value i of the grouped bits is field i mod q of byte i div q, and a byte is the sum of its fields. -/
theorem packedFieldClosedForms : Obligations.PackedFieldClosedForms := by
  unfold Obligations.PackedFieldClosedForms
  intro n hn
  have h := (validN_iff_mem n).2 hn
  refine ⟨fun bytes => length_group_toBits bytes h, fun vals => ?_, fun bytes i hi => ?_, fun vals k hk => ?_, ?_⟩
  · rw [length_fromBits, length_ungroup]
  · have hf : i % (8 / n) < 8 / n := Nat.mod_lt i (Nat.div_pos (validN_pos h).2 (validN_pos h).1)
    have hfield := getElem?_group_toBits h hi hf
    rwa [Nat.div_add_mod] at hfield
  · rw [getElem?_fromBits (by rwa [length_ungroup]), Option.map_some, toNat_packBits_ungroup vals h k]
    rfl
  · rintro rfl bytes
    exact ⟨group_toBits_eight bytes, fromBits_ungroup_eight bytes⟩

end Sys2Proof.Machine

/-! ## GROUP and UNGROUP (R124, R125) -/

namespace Sys2Proof.Machine

/-- A command that uses N raises ConfigurationError when NBITS is none of the four widths, and does nothing else (R210,
R213). -/
theorem exec_of_invalidN {i : Instr} {s : State} (hready : ready s) (hi : usesN i = true)
    (hn : s.nbits.toNat ∉ [1, 2, 4, 8]) :
    exec i s = .next { s with done := false, err := true, errcode := 1 } := by
  have hinvalid : validN (nOf s) = false := Bool.eq_false_iff.2 fun h => hn ((validN_iff_mem _).1 h)
  have hrule : ruleOf i (accept s) = .error .configurationError := by
    rw [ruleOf_eq, nOf_accept, hi, hinvalid]; rfl
  rw [exec_eq_gate, gate_of_ready_error (passes_of_ready hready) hrule, raiseError_accept_idle hready.1, errorCode]

/-- One of the four widths passes the N check of any command. -/
theorem nCheck_passes (i : Instr) {s : State} (hn : s.nbits.toNat ∈ [1, 2, 4, 8]) :
    (usesN i && !validN (nOf s)) = false := by
  rw [nOf, (validN_iff_mem _).2 hn, Bool.not_true, Bool.and_false]

/-- Element N i + j of UNGROUP's result is bit N − 1 − j of the masked IBUF entry i, as a byte. -/
theorem getElem?_resultOf_ungroup {s : State} {i j : Nat} (hn : validN (nOf s) = true) (hi : i < s.srcLen.toNat)
    (hj : j < nOf s) :
    (resultOf .ungroup s)[nOf s * i + j]? =
      some (((readIbuf s i &&& loMask (nOf s)) >>> (nOf s - 1 - j)) &&& 1) := by
  rw [resultOf, List.getElem?_map, getElem?_ungroup _ hn hj, getElem?_inputSeq s hi, shiftRight_and_one,
    getLsbD_and_loMask hn (by omega)]
  rfl

/-- Settles O16: the N check comes first; a result that fits is delivered, and it is the group of bit 0 of each IBUF
entry. -/
theorem groupPacksInput : Obligations.GroupPacksInput := by
  unfold Obligations.GroupPacksInput
  intro s hready
  refine ⟨exec_of_invalidN hready rfl, fun hn => ⟨fun hin hout => ?_, fun hfail => ?_⟩⟩
  · have hfits : rangeFails .group s = false := by simp [rangeFails, hin, hout]
    have hlen : (resultOf .group s).length = (s.srcLen.toNat + s.nbits.toNat - 1) / s.nbits.toNat :=
      length_resultOf .group s
    obtain ⟨t, hexec, ht⟩ := exec_delivers hready (nCheck_passes .group hn) hfits rfl
    refine ⟨t, hexec, ht.frame, ht.dstLen.trans hlen, ?_, fun a ha => ht.readObuf_of_le (hlen.trans_le ha)⟩
    rw [← inputBits_eq, ← hlen]
    exact ht.map_readObuf
  · exact exec_of_rangeFails hready (nCheck_passes .group hn) (by simpa [rangeFails] using hfail)

/-- Settles O17: the N check comes first; a result that fits is delivered, and element N i + j of it is the bit asked
for. -/
theorem ungroupUnpacksInput : Obligations.UngroupUnpacksInput := by
  unfold Obligations.UngroupUnpacksInput
  intro s hready
  refine ⟨exec_of_invalidN hready rfl, fun hn => ⟨fun hin hout => ?_, fun hfail => ?_⟩⟩
  · have hfits : rangeFails .ungroup s = false := by simp [rangeFails, hin, hout]
    have hlen : (resultOf .ungroup s).length = s.nbits.toNat * s.srcLen.toNat := length_resultOf .ungroup s
    obtain ⟨t, hexec, ht⟩ := exec_delivers hready (nCheck_passes .ungroup hn) hfits rfl
    exact ⟨t, hexec, ht.frame, ht.dstLen.trans hlen,
      fun i j hi hj => ht.readObuf_of_getElem? (getElem?_resultOf_ungroup ((validN_iff_mem _).2 hn) hi hj),
      fun a ha => ht.readObuf_of_le (hlen.trans_le ha)⟩
  · exact exec_of_rangeFails hready (nCheck_passes .ungroup hn) (by simpa [rangeFails] using hfail)

end Sys2Proof.Machine

/-! ## The two segments of a channel value (R10, R136, R138, R139, R142) -/

namespace Sys2Proof.Machine

theorem toNat_loMask {n : Nat} (h : validN n = true) : (loMask n).toNat = 2 ^ n - 1 := by
  rcases (validN_iff n).1 h with rfl | rfl | rfl | rfl <;> rfl

/-- `extract` is the remainder by `2^N`: the low segment (R139). -/
theorem toNat_extract {n : Nat} (h : validN n = true) (v : Byte) : (extract v n).toNat = v.toNat % 2 ^ n := by
  rw [extract, BitVec.toNat_and, toNat_loMask h, Nat.and_two_pow_sub_one_eq_mod]

/-- The high segment mask clears the bits below `n` and keeps the others. -/
theorem and_hiMask {n : Nat} (h : validN n = true) (v : Byte) : v &&& hiMask n = v >>> n <<< n := by
  refine BitVec.eq_of_getLsbD_eq fun b hb => ?_
  rw [BitVec.getLsbD_and, getLsbD_hiMask h, BitVec.getLsbD_shiftLeft, BitVec.getLsbD_ushiftRight]
  by_cases hbn : b < n
  · simp [hbn]
  · rw [Nat.add_sub_of_le (by omega)]
    simp [hbn, hb]

/-- What `embed` keeps of the old value is its quotient by `2^N`, in place: the high segment (R136). -/
theorem toNat_and_hiMask {n : Nat} (h : validN n = true) (v : Byte) :
    (v &&& hiMask n).toNat = v.toNat / 2 ^ n * 2 ^ n := by
  have hlt : v.toNat / 2 ^ n * 2 ^ n < 2 ^ 8 := (Nat.div_mul_le_self _ _).trans_lt v.isLt
  rw [and_hiMask h, BitVec.toNat_shiftLeft, BitVec.toNat_ushiftRight, Nat.shiftRight_eq_div_pow,
    Nat.shiftLeft_eq, Nat.mod_eq_of_lt hlt]

/-- Or-ing a data value below `2^N` into the cleared low segment adds it: no bit meets another (R138). -/
theorem toNat_embed {n : Nat} (h : validN n = true) (v : Byte) {d : Byte} (hd : d.toNat < 2 ^ n) :
    (embed v d n).toNat = v.toNat / 2 ^ n * 2 ^ n + d.toNat := by
  rw [embed, BitVec.toNat_or, toNat_and_hiMask h, ← Nat.shiftLeft_eq, Nat.shiftLeft_add_eq_or_of_lt hd]

/-- Settles O42: the mask keeps the high segment, and or-ing the data value below it adds it. -/
theorem embedReplacesLowSegment : Obligations.EmbedReplacesLowSegment := by
  unfold Obligations.EmbedReplacesLowSegment
  intro n v d hn hd
  have hvalid : validN n = true := (validN_iff_mem n).2 hn
  have hkept : (v &&& (255 - BitVec.ofNat 8 (2 ^ n - 1))).toNat = v.toNat / 2 ^ n * 2 ^ n := toNat_and_hiMask hvalid v
  exact ⟨rfl, by rw [hkept, toNat_embed hvalid v hd], hkept⟩

/-- Settles O43: the embedded value is `2^N` times the high segment plus the data value, so the data value is its
remainder and the high segment its quotient. -/
theorem channelRoundTrip : Obligations.ChannelRoundTrip := by
  unfold Obligations.ChannelRoundTrip
  intro n v d hn hd
  have hvalid : validN n = true := (validN_iff_mem n).2 hn
  have hembed := toNat_embed hvalid v hd
  refine ⟨BitVec.eq_of_toNat_eq ?_, BitVec.eq_of_toNat_eq ?_⟩
  · rw [toNat_extract hvalid, hembed, Nat.mul_add_mod_self_right, Nat.mod_eq_of_lt hd]
  · rw [BitVec.toNat_ushiftRight, BitVec.toNat_ushiftRight, Nat.shiftRight_eq_div_pow, Nat.shiftRight_eq_div_pow,
      hembed, Nat.add_comm, Nat.add_mul_div_right _ _ (Nat.two_pow_pos n), Nat.div_eq_of_lt hd, Nat.zero_add]

end Sys2Proof.Machine

/-! ## EMBED and EXTRACT (R140, R143, R145) -/

namespace Sys2Proof.Machine

theorem channelOf_eq_red {i : Nat} (h : i % 3 = 0) : channelOf i = .red := by simp [channelOf, h]

theorem channelOf_eq_green {i : Nat} (h : i % 3 = 1) : channelOf i = .green := by simp [channelOf, h]

theorem channelOf_eq_blue {i : Nat} (h : i % 3 = 2) : channelOf i = .blue := by simp [channelOf, h]

/-- The pixels of GRID after EMBED: the one at the cursor takes the masked D_IN in the cursor's channel (R140, R144). -/
theorem readGrid_effectOf_embed (s : State) (p : Nat) :
    readGrid (effectOf .embed s) p =
      if p = pixelOf s.widx.toNat then
        embedPixel (readGrid s p) (channelOf s.widx.toNat) (s.dIn &&& loMask (nOf s)) (nOf s)
      else readGrid s p := by
  rw [readGrid_effectOf, gridAfter, gridPixel_embedAt]
  rfl

/-- Settles O18: the N check comes first, then the range check; the effect replaces the pixel at the cursor by
`embedPixel` of it, for each of the three channels. -/
theorem embedWritesChannelAtCursor : Obligations.EmbedWritesChannelAtCursor := by
  unfold Obligations.EmbedWritesChannelAtCursor
  intro s hready
  refine ⟨exec_of_invalidN hready rfl, fun hn => ⟨fun hfail => ?_, fun hi hp => ?_⟩⟩
  · exact exec_of_rangeFails hready (nCheck_passes .embed hn) (by simpa [rangeFails] using hfail)
  · have hfits : rangeFails .embed s = false := by simp [rangeFails, hi, hp]
    have hpixel := (readGrid_effectOf_embed s (s.widx.toNat / 3)).trans (if_pos rfl)
    refine ⟨_, exec_of_fits hready (nCheck_passes .embed hn) hfits, ?_, fun hc => ?_, fun hc => ?_, fun hc => ?_,
      fun p hne => (readGrid_effectOf_embed s p).trans (if_neg hne)⟩
    · rw [complete, effectOf, ← hready.1]
    · rw [channelOf_eq_red hc] at hpixel; exact hpixel
    · rw [channelOf_eq_green hc] at hpixel; exact hpixel
    · rw [channelOf_eq_blue hc] at hpixel; exact hpixel

/-- Settles O19: the N check comes first, then the range check; the effect puts the remainder by `2^N` of the cursor's
channel into D_OUT. -/
theorem extractReadsChannelAtCursor : Obligations.ExtractReadsChannelAtCursor := by
  unfold Obligations.ExtractReadsChannelAtCursor
  intro s hready
  refine ⟨exec_of_invalidN hready rfl, fun hn => ⟨fun hfail => ?_, fun hi hp => ?_⟩⟩
  · exact exec_of_rangeFails hready (nCheck_passes .extract hn) (by simpa [rangeFails] using hfail)
  · have hfits : rangeFails .extract s = false := by simp [rangeFails, hi, hp]
    have hdata := toNat_extract ((validN_iff_mem _).2 hn)
      (chan (readGrid s (s.widx.toNat / 3)) (channelOf s.widx.toNat))
    refine ⟨_, exec_of_fits hready (nCheck_passes .extract hn) hfits, ?_, fun hc => hdata.trans ?_,
      fun hc => hdata.trans ?_, fun hc => hdata.trans ?_⟩
    · rw [complete, effectOf, ← hready.1]
    · rw [channelOf_eq_red hc, chan]
    · rw [channelOf_eq_green hc, chan]
    · rw [channelOf_eq_blue hc, chan]

end Sys2Proof.Machine

/-! ## WRESET and WNEXT (R154, R155) -/

namespace Sys2Proof.Machine

/-- WVALID with the length of the traversal written out (R31, R151). -/
theorem wvalid_iff (s : State) : wvalid s = true ↔ s.widx.toNat < 3 * (s.height.toNat * s.width.toNat) :=
  decide_eq_true_iff

/-- A channel index up to the end of the traversal fits WIDX. -/
theorem toNat_ofNat_of_le_channelCount {s : State} {i : Nat} (h : i ≤ channelCount s) :
    (BitVec.ofNat 40 i).toNat = i := by
  have hlt := channelCount_lt s
  exact Nat.mod_eq_of_lt (by omega)

theorem complete_setCursor {s : State} (hb : s.busy = false) (i : Nat) :
    complete (setCursor i s) = { s with widx := BitVec.ofNat 40 i, done := true } := by
  rw [complete, setCursor, ← hb]

theorem exec_wreset {s : State} (h : ready s) : exec .wreset s = .next { s with widx := 0, done := true } := by
  rw [exec_of_fits h rfl rfl, effectOf, complete_setCursor h.1]; rfl

theorem exec_wnext_of_wvalid {s : State} (h : ready s) (hv : wvalid s = true) :
    exec .wnext s = .next { s with widx := BitVec.ofNat 40 (s.widx.toNat + 1), done := true } := by
  rw [exec_of_fits h rfl rfl, effectOf, if_pos hv, complete_setCursor h.1]

theorem exec_wnext_of_exhausted {s : State} (h : ready s) (hv : ¬wvalid s = true) :
    exec .wnext s = .next { s with done := true } := by
  rw [exec_of_fits h rfl rfl, effectOf, if_neg hv, setCursor_self, complete, ← h.1]

/-- Settles O12: WRESET makes no check, and channel 0 is in the grid exactly if the traversal is not empty. -/
theorem wresetRestartsCursor : Obligations.WresetRestartsCursor := by
  unfold Obligations.WresetRestartsCursor
  intro s hready
  refine ⟨_, exec_wreset hready, rfl, (wvalid_iff _).trans ?_⟩
  exact Nat.mul_pos_iff_of_pos_left (by decide)

/-- Settles O13: the rule branches on WVALID, and WIDX + 1 does not wrap below the end of the traversal. -/
theorem wnextStepsCursor : Obligations.WnextStepsCursor := by
  unfold Obligations.WnextStepsCursor
  intro s hready
  refine ⟨fun hlt => ?_, fun hle => ?_⟩
  · rw [exec_wnext_of_wvalid hready ((wvalid_iff s).2 hlt), BitVec.ofNat_add, BitVec.ofNat_toNat, BitVec.setWidth_eq]
    rfl
  · exact exec_wnext_of_exhausted hready fun hv => Nat.not_lt.2 hle ((wvalid_iff s).1 hv)

end Sys2Proof.Machine

/-! ## The cursor as column, row and channel (R150, R156) -/

namespace Sys2Proof.Machine

section
variable {s : State}

/-- A place in the grid determines the cursor whose index it has. -/
theorem cursor_of_place {x y c : Nat} (hx : x < s.width.toNat) (hy : y < s.height.toNat) (hc : c ≤ 2)
    (hi : s.widx.toNat = 3 * (y * s.width.toNat + x) + c) :
    wvalid s = true ∧ cursorColumn s = x ∧ cursorRow s = y ∧ s.widx.toNat % 3 = c := by
  have hw : s.width.toNat ≠ 0 := by omega
  have hpixel : s.widx.toNat / 3 = s.width.toNat * y + x := by rw [Nat.mul_comm]; omega
  have hlt : y * s.width.toNat + x < s.height.toNat * s.width.toNat := by
    rw [Nat.mul_comm y]; exact Nat.mul_add_lt_mul_of_lt_of_lt hy hx
  refine ⟨(wvalid_iff s).2 (by omega), ?_, ?_, by omega⟩
  · rw [cursorColumn_eq, if_neg hw, hpixel, Nat.mul_add_mod, Nat.mod_eq_of_lt hx]
  · rw [cursorRow_eq, if_neg hw, hpixel, Nat.mul_add_div (Nat.pos_of_ne_zero hw), Nat.div_eq_of_lt hx, Nat.add_zero]

/-- A cursor that designates a channel has a place in the grid: quotient and remainder of the pixel number by WIDTH. -/
theorem place_of_wvalid (hw : 0 < s.width.toNat) (hv : wvalid s = true) :
    cursorColumn s < s.width.toNat ∧ cursorRow s < s.height.toNat ∧
      s.widx.toNat = 3 * (cursorRow s * s.width.toNat + cursorColumn s) + s.widx.toNat % 3 := by
  have hlt := (wvalid_iff s).1 hv
  have hpixel := Nat.div_add_mod' (s.widx.toNat / 3) s.width.toNat
  rw [cursorColumn_eq, cursorRow_eq, if_neg hw.ne', if_neg hw.ne', hpixel]
  exact ⟨Nat.mod_lt _ hw, Nat.div_lt_of_lt_mul (by rw [Nat.mul_comm]; omega), (Nat.div_add_mod _ 3).symm⟩

/-- WNEXT leaves the cursor at the place whose index is the next one, if the grid has such a place. -/
theorem exec_wnext_place (hready : ready s) (hv : wvalid s = true) :
    ∃ t, exec .wnext s = .next t ∧
      (∀ {x y c : Nat}, x < s.width.toNat → y < s.height.toNat → c ≤ 2 →
        s.widx.toNat + 1 = 3 * (y * s.width.toNat + x) + c →
        wvalid t = true ∧ cursorColumn t = x ∧ cursorRow t = y ∧ t.widx.toNat % 3 = c) ∧
      (s.widx.toNat + 1 = 3 * (s.height.toNat * s.width.toNat) → wvalid t = false) := by
  have hnext := toNat_ofNat_of_le_channelCount (s := s) (i := s.widx.toNat + 1) (of_decide_eq_true hv)
  refine ⟨_, exec_wnext_of_wvalid hready hv, fun hx hy hc hi => cursor_of_place hx hy hc (hnext.trans hi),
    fun hend => Bool.eq_false_iff.2 fun hvalid => ?_⟩
  exact ((wvalid_iff _).1 hvalid).ne (hnext.trans hend)

end

/-- Settles O44: in each of the four cases the successor's place has the next index. -/
theorem cursorWalksTraversalOrder : Obligations.CursorWalksTraversalOrder := by
  unfold Obligations.CursorWalksTraversalOrder
  intro s hready hw hh
  refine ⟨fun x y c => cursor_of_place, fun hv => ?_⟩
  obtain ⟨hx, hy, hi⟩ := place_of_wvalid hw hv
  obtain ⟨t, hexec, place, exhausted⟩ := exec_wnext_place hready hv
  refine ⟨hx, hy, hi, t, hexec, fun hc => place hx hy hc (by omega),
    fun hc hx' => place hx' hy (Nat.zero_le 2) (by omega),
    fun hc hx' hy' => place hw hy' (Nat.zero_le 2) ?_, fun hc hx' hy' => exhausted ?_⟩
  · rw [Nat.add_mul]; omega
  · rw [← hy', Nat.add_mul]; omega

end Sys2Proof.Machine

/-! ## The walk loop (R157) -/

namespace Sys2Proof.Machine

/-- With the block idle and a command word the host's next move, the step is the command it selects. -/
theorem step_cmd_idle {s : State} {v : PortWord} {i : Instr} (hb : s.busy = false) (hv : opOfPort v = encode i)
    (rest : List HostMove) : step { s with moves := .cmd v :: rest } = exec i { s with moves := rest } := by
  refine (takeMove_cmd_idle (s := { s with moves := rest }) hb v).trans ?_
  rw [issue, hv, decodeOp_encode]

theorem run_succ_of_step {M : Host.Core} {s t : M.State} (h : M.step s = .next t) (k : Nat) :
    M.run (k + 1) s = M.run k t := by
  rw [Host.Core.run, h]

/-- `s` once a walk has brought the cursor to channel `i`, with the moves `ms` still to come. -/
def walkedTo (i : Nat) (ms : List HostMove) (s : State) : State :=
  { s with moves := ms, widx := BitVec.ofNat 40 i, done := true }

section
variable {s : State} {i : Nat}

theorem toNat_walkedTo_widx (h : i ≤ channelCount s) (ms : List HostMove) : (walkedTo i ms s).widx.toNat = i :=
  toNat_ofNat_of_le_channelCount h

theorem wvalid_walkedTo (h : i ≤ channelCount s) (ms : List HostMove) :
    wvalid (walkedTo i ms s) = true ↔ i < channelCount s := by
  rw [wvalid_iff, toNat_walkedTo_widx h]
  rfl

theorem step_wreset (hready : ready s) (ms : List HostMove) :
    step { s with moves := .cmd 0x07 :: ms } = .next (walkedTo 0 ms s) :=
  (step_cmd_idle (i := .wreset) hready.1 (by decide) ms).trans (exec_wreset (s := { s with moves := ms }) hready)

theorem step_wnext_walkedTo (hready : ready s) (h : i < channelCount s) (ms : List HostMove) :
    step (walkedTo i (.cmd 0x08 :: ms) s) = .next (walkedTo (i + 1) ms s) := by
  have hexec := exec_wnext_of_wvalid (s := walkedTo i ms s) hready ((wvalid_walkedTo h.le ms).2 h)
  rw [toNat_walkedTo_widx h.le] at hexec
  exact (step_cmd_idle (s := walkedTo i ms s) (i := .wnext) hready.1 (by decide) ms).trans hexec

/-- As many WNEXT as there are moves left, none of them past the end of the traversal. -/
theorem run_wnext_walkedTo (hready : ready s) (k : Nat) (h : i + k ≤ channelCount s) :
    Host.Core.run Sys2Proof.core k (walkedTo i (List.replicate k (.cmd 0x08)) s) = .next (walkedTo (i + k) [] s) := by
  induction k generalizing i with
  | zero => rfl
  | succ k ih =>
    have hrest := ih (i := i + 1) (by omega)
    rw [Nat.add_right_comm] at hrest
    exact (run_succ_of_step (step_wnext_walkedTo hready (by omega) _) k).trans hrest

end

/-- Settles O45: WRESET brings the cursor to channel 0 and the k WNEXT, by induction on k, to channel k. -/
theorem walkLoopVisitsEveryChannel : Obligations.WalkLoopVisitsEveryChannel := by
  unfold Obligations.WalkLoopVisitsEveryChannel
  intro s k hready hk
  refine ⟨walkedTo k [] s, ?_, rfl, toNat_walkedTo_widx hk [], wvalid_walkedTo hk []⟩
  have hwalk := run_wnext_walkedTo (i := 0) hready k (by rwa [Nat.zero_add])
  rw [Nat.zero_add] at hwalk
  exact (run_succ_of_step (step_wreset hready _) k).trans hwalk

end Sys2Proof.Machine

/-! ## ENCODE (R165, R166, R167) -/

namespace Sys2Proof.Machine

/-! ### The data values of the message in IBUF -/

/-- The data values of the message ENCODE finds in IBUF (R165). -/
def dataValues (s : State) : List Byte := messageValues (inputSeq s s.srcLen.toNat) (nOf s)

/-- Past the end of the data values the selected value is 0 either way (R165). -/
theorem selectValue_eq_ite (dv : List Byte) (i : Nat) :
    selectValue dv i = if i < dv.length then dv.getD i 0 else 0 := by
  by_cases hi : i < dv.length
  · rw [if_pos hi, selectValue]
  · rw [if_neg hi, selectValue, List.getD_eq_default _ _ (Nat.not_lt.1 hi)]

/-- Data value `i` is field `i mod q` of message byte `i div q`, with q = 8 / N, and 0 once the message has ended
(R166). -/
theorem selectValue_dataValues {s : State} (h : validN (nOf s) = true) (i : Nat) :
    selectValue (dataValues s) i =
      if i < 8 / nOf s * s.srcLen.toNat then
        (readIbuf s (i / (8 / nOf s)) >>> (8 - nOf s - nOf s * (i % (8 / nOf s)))) &&& loMask (nOf s)
      else 0 := by
  have hlen : (dataValues s).length = 8 / nOf s * s.srcLen.toNat := by
    rw [dataValues, messageValues, length_group_toBits _ h, length_inputSeq]
  rw [selectValue_eq_ite, hlen]
  by_cases hi : i < 8 / nOf s * s.srcLen.toNat
  · have hq : 0 < 8 / nOf s := Nat.div_pos (validN_pos h).2 (validN_pos h).1
    have hk : i / (8 / nOf s) < s.srcLen.toNat := Nat.div_lt_of_lt_mul hi
    have hfield := getElem?_group_toBits (bytes := inputSeq s s.srcLen.toNat) h (by rwa [length_inputSeq])
      (Nat.mod_lt i hq)
    rw [Nat.div_add_mod, (List.getElem_eq_iff _).2 (getElem?_inputSeq s hk)] at hfield
    rw [if_pos hi, if_pos hi, List.getD_eq_getElem?_getD, dataValues, messageValues, hfield, Option.getD_some]
  · rw [if_neg hi, if_neg hi]

/-- A grouped value is N bits, so masking it to N bits changes nothing. -/
theorem selectValue_dataValues_and_loMask {s : State} (h : validN (nOf s) = true) (i : Nat) :
    selectValue (dataValues s) i &&& loMask (nOf s) = selectValue (dataValues s) i := by
  rw [selectValue_dataValues h]
  split
  · rw [BitVec.and_assoc, BitVec.and_self]
  · exact BitVec.zero_and

/-! ### The pixels ENCODE leaves -/

/-- Pixel `q` at entry `p` once its three channels hold their data values (R167). -/
def encodedPixel (dv : List Byte) (n p : Nat) (q : Pixel) : Pixel :=
  ⟨embed q.r (selectValue dv (3 * p)) n, embed q.g (selectValue dv (3 * p + 1)) n,
    embed q.b (selectValue dv (3 * p + 2)) n, 255⟩

section
variable {s : State} {p : Nat}

theorem readGrid_effectOf_encode_inside (hp : p < pixelCount s) :
    readGrid (effectOf .encode s) p = encodedPixel (dataValues s) (nOf s) p (readGrid s p) := by
  have hr : 3 * p < channelCount s := by unfold channelCount; omega
  have hg : 3 * p + 1 < channelCount s := by unfold channelCount; omega
  have hb : 3 * p + 2 < channelCount s := by unfold channelCount; omega
  rw [readGrid_effectOf, gridAfter, gridPixel_embedAll, if_pos hr, if_pos hg, if_pos hb, if_pos hr]
  rfl

theorem readGrid_effectOf_encode_outside (hp : pixelCount s ≤ p) : readGrid (effectOf .encode s) p = readGrid s p :=
  (readGrid_effectOf .encode s p).trans
    (gridPixel_gridAfter_of_not_written (decide_eq_false (Nat.not_lt.2 hp)))

end

/-! ### The command -/

/-- The state ENCODE leaves: the grid with the message in it, the cursor at the end of the traversal (R165). -/
def encoded (s : State) : State :=
  { s with grid := gridAfter .encode s, widx := BitVec.ofNat 40 (channelCount s), done := true }

theorem exec_encode_of_fits {s : State} (hready : ready s) (hn : s.nbits.toNat ∈ [1, 2, 4, 8])
    (hr : rangeFails .encode s = false) : exec .encode s = .next (encoded s) := by
  rw [exec_of_fits hready (nCheck_passes .encode hn) hr, complete, effectOf, encoded, ← hready.1]
  rfl

/-- The checks of R211 in the form the statements give them. -/
theorem rangeFails_encode_eq_false {s : State} (hin : s.srcLen.toNat ≤ s.params.ibufDepth.val)
    (hgrid : s.height.toNat * s.width.toNat ≤ s.params.gridDepth.val) : rangeFails .encode s = false := by
  simp [rangeFails, hin, hgrid]

/-- Settles O20: the N check comes first, then the range check; the effect takes each pixel of the grid to its
`encodedPixel` and leaves the others. -/
theorem encodeEmbedsMessage : Obligations.EncodeEmbedsMessage := by
  unfold Obligations.EncodeEmbedsMessage
  intro s hready
  refine ⟨exec_of_invalidN hready rfl, fun hn => ⟨fun hfail => ?_, fun hin hgrid => ?_⟩⟩
  · exact exec_of_rangeFails hready (nCheck_passes .encode hn) (by simpa [rangeFails] using hfail)
  · refine ⟨encoded s, exec_encode_of_fits hready hn (rangeFails_encode_eq_false hin hgrid), rfl,
      toNat_ofNat_of_le_channelCount (le_refl _), fun p hp => ?_, fun p => readGrid_effectOf_encode_outside⟩
    simp only [← selectValue_eq_ite]
    exact readGrid_effectOf_encode_inside hp

/-- Settles O21: the pixels are those of O20, and the data values are the fields of the message bytes. -/
theorem encodeClosedForm : Obligations.EncodeClosedForm := by
  unfold Obligations.EncodeClosedForm
  intro s hready hn hin hgrid
  refine ⟨encoded s, exec_encode_of_fits hready hn (rangeFails_encode_eq_false hin hgrid), rfl, hready.2,
    fun p hp => ?_, fun p => readGrid_effectOf_encode_outside⟩
  have hdata := selectValue_dataValues (s := s) ((validN_iff_mem _).2 hn)
  refine (readGrid_effectOf_encode_inside hp).trans ?_
  rw [encodedPixel, hdata, hdata, hdata]
  rfl

end Sys2Proof.Machine

/-! ## ENCODE as a host loop over the unit commands (R173) -/

namespace Sys2Proof.Machine

/-- What the host sends for channel `i`: its data value to D_IN, then EMBED and WNEXT. -/
def channelMoves (dv : List Byte) (i : Nat) : List HostMove :=
  [.regWrite 0x08 ((dv.getD i 0).setWidth 40), .cmd 0x05, .cmd 0x08]

@[simp] theorem length_channelMoves (dv : List Byte) (i : Nat) : (channelMoves dv i).length = 3 := rfl

/-- `s` with the data values of the first `i` channels embedded, and the last of them left in D_IN. -/
def embeddedTo (i : Nat) (s : State) : State :=
  { s with
    grid := embedAll s.grid (dataValues s) (nOf s) i
    dIn := if i = 0 then s.dIn else (dataValues s).getD (i - 1) 0 }

theorem embeddedTo_zero (s : State) : embeddedTo 0 s = s := rfl

theorem exec_embed_of_fits {s : State} (hready : ready s) (hn : s.nbits.toNat ∈ [1, 2, 4, 8])
    (hr : rangeFails .embed s = false) :
    exec .embed s = .next { s with grid := gridAfter .embed s, done := true } := by
  rw [exec_of_fits hready (nCheck_passes .embed hn) hr, complete, effectOf, ← hready.1]

theorem step_regWrite_dIn {s : State} (hb : s.busy = false) (d : Byte) (rest : List HostMove) :
    step { s with moves := .regWrite 0x08 (d.setWidth 40) :: rest } = .next { s with moves := rest, dIn := d } := by
  refine (takeMove_regWrite_idle (s := { s with moves := rest }) (r := .dIn) hb rfl (by decide) _).trans ?_
  rw [writeReg, BitVec.setWidth_setWidth_of_le _ (by decide), BitVec.setWidth_eq]

/-- The loop at channel `i` with the channel's data value waiting in D_IN. -/
def poisedAt (i : Nat) (ms : List HostMove) (s : State) : State :=
  { walkedTo i ms (embeddedTo i s) with dIn := (dataValues s).getD i 0 }

section
variable {s : State} {i : Nat} (hi : i < channelCount s) (ms : List HostMove)
include hi

theorem toNat_poisedAt_widx : (poisedAt i ms s).widx.toNat = i := toNat_walkedTo_widx (s := s) hi.le ms

theorem rangeFails_embed_poisedAt (hgrid : s.height.toNat * s.width.toNat ≤ s.params.gridDepth.val) :
    rangeFails .embed (poisedAt i ms s) = false := by
  have hpixel : i / 3 < s.params.gridDepth.val := by unfold channelCount pixelCount at hi; omega
  simp only [rangeFails, toNat_poisedAt_widx hi, Bool.or_eq_false_iff, decide_eq_false_iff_not, Nat.not_le]
  exact ⟨hi, hpixel⟩

/-- EMBED does the next embed of the traversal: its mask leaves the data value alone. -/
theorem gridAfter_embed_poisedAt (hn : validN (nOf s) = true) :
    gridAfter .embed (poisedAt i ms s) = embedAll s.grid (dataValues s) (nOf s) (i + 1) := by
  have hmask := selectValue_dataValues_and_loMask hn i
  rw [embedAll_succ, ← hmask, gridAfter, toNat_poisedAt_widx hi]
  rfl

end

section
variable {s : State} {i : Nat} (hready : ready s) (hn : s.nbits.toNat ∈ [1, 2, 4, 8])
  (hgrid : s.height.toNat * s.width.toNat ≤ s.params.gridDepth.val) (hi : i < channelCount s)
include hready

theorem step_regWrite_walkedTo (ms : List HostMove) :
    step (walkedTo i (.regWrite 0x08 (((dataValues s).getD i 0).setWidth 40) :: ms) (embeddedTo i s)) =
      .next (poisedAt i ms s) :=
  step_regWrite_dIn (s := walkedTo i ms (embeddedTo i s)) hready.1 _ ms

include hn hgrid hi

theorem step_embed_poisedAt (ms : List HostMove) :
    step (poisedAt i (.cmd 0x05 :: ms) s) = .next (walkedTo i ms (embeddedTo (i + 1) s)) := by
  have hexec := exec_embed_of_fits (s := poisedAt i ms s) hready hn (rangeFails_embed_poisedAt hi ms hgrid)
  rw [gridAfter_embed_poisedAt hi ms ((validN_iff_mem _).2 hn)] at hexec
  exact (step_cmd_idle (s := poisedAt i ms s) (i := .embed) hready.1 (by decide) ms).trans hexec

/-- The three moves for channel `i` bring the loop from channel `i` to channel `i + 1`. -/
theorem run_channelMoves (k : Nat) (ms : List HostMove) :
    Host.Core.run Sys2Proof.core (k + 3) (walkedTo i (channelMoves (dataValues s) i ++ ms) (embeddedTo i s)) =
      Host.Core.run Sys2Proof.core k (walkedTo (i + 1) ms (embeddedTo (i + 1) s)) := by
  have hwrite := step_regWrite_walkedTo (i := i) hready (.cmd 0x05 :: .cmd 0x08 :: ms)
  have hembed := step_embed_poisedAt hready hn hgrid hi (.cmd 0x08 :: ms)
  have hnext := step_wnext_walkedTo (s := embeddedTo (i + 1) s) hready hi ms
  exact (run_succ_of_step hwrite _).trans ((run_succ_of_step hembed _).trans (run_succ_of_step hnext k))

end

/-- The loop over `k` channels from channel `i` on. -/
theorem run_flatMap_channelMoves {s : State} (hready : ready s) (hn : s.nbits.toNat ∈ [1, 2, 4, 8])
    (hgrid : s.height.toNat * s.width.toNat ≤ s.params.gridDepth.val) (k i : Nat) (h : i + k ≤ channelCount s) :
    Host.Core.run Sys2Proof.core (3 * k)
        (walkedTo i ((List.range' i k).flatMap (channelMoves (dataValues s))) (embeddedTo i s)) =
      .next (walkedTo (i + k) [] (embeddedTo (i + k) s)) := by
  induction k generalizing i with
  | zero => rfl
  | succ k ih =>
    have hrest := ih (i + 1) (by omega)
    rw [Nat.add_right_comm] at hrest
    exact (run_channelMoves hready hn hgrid (by omega) (3 * k) _).trans hrest

/-- Settles O46: WRESET brings the cursor to channel 0, and by induction on the channels the loop embeds what ENCODE
embeds; each data value is N bits, so EMBED's mask changes none. -/
theorem encodeEqualsUnitCommandLoop : Obligations.EncodeEqualsUnitCommandLoop := by
  unfold Obligations.EncodeEqualsUnitCommandLoop
  intro s hready hn hin hgrid
  refine ⟨encoded s, walkedTo (channelCount s) [] (embeddedTo (channelCount s) s),
    exec_encode_of_fits hready hn (rangeFails_encode_eq_false hin hgrid), ?_, rfl⟩
  have hloop := run_flatMap_channelMoves hready hn hgrid (channelCount s) 0 (by omega)
  rw [← List.range_eq_range', Nat.zero_add, embeddedTo_zero] at hloop
  have hlen : ((List.range (channelCount s)).flatMap (channelMoves (dataValues s))).length = 3 * channelCount s := by
    rw [length_flatMap_of_length (length_channelMoves _), List.length_range]
  rw [← hlen] at hloop
  exact (run_succ_of_step (step_wreset hready _) _).trans hloop

end Sys2Proof.Machine

/-! ## ENCODE over an encoded grid (R175) -/

namespace Sys2Proof.Machine

/-- A second embed clears what the first one put into the low segment. -/
theorem embed_embed {n : Nat} (h : validN n = true) (v : Byte) {d' : Byte} (hd' : d' &&& loMask n = d') (d : Byte) :
    embed (embed v d' n) d n = embed v d n := by
  have hclear : d' &&& hiMask n = 0#8 := by
    refine BitVec.eq_of_getLsbD_eq fun b hb => ?_
    rw [← hd', BitVec.getLsbD_and, BitVec.getLsbD_and, getLsbD_loMask h, getLsbD_hiMask h]
    by_cases hbn : b < n <;> simp [hbn]
  rw [embed, embed, embed, BitVec.and_or_distrib_right, BitVec.and_assoc, BitVec.and_self, hclear,
    BitVec.or_zero]

/-- Encoding a pixel over an encoded one is encoding it over the pixel before: only the high segments are read. -/
theorem encodedPixel_encodedPixel {s : State} (h : validN (nOf s) = true) (dv : List Byte) (p : Nat) (q : Pixel) :
    encodedPixel dv (nOf s) p (encodedPixel (dataValues s) (nOf s) p q) = encodedPixel dv (nOf s) p q := by
  have hmask := selectValue_dataValues_and_loMask h
  simp only [encodedPixel, embed_embed h _ (hmask _)]

/-- `s` with another message in IBUF. -/
def withMessage (message : Memory Byte) (len : BitVec 40) (s : State) : State :=
  { s with ibuf := message, srcLen := len }

/-- Any second message leaves the pixels it would have left without the first one. -/
theorem readGrid_encode_encoded {s : State} (h : validN (nOf s) = true) (message : Memory Byte) (len : BitVec 40)
    (p : Nat) :
    readGrid (effectOf .encode (withMessage message len (encoded s))) p =
      readGrid (effectOf .encode (withMessage message len s)) p := by
  rcases Nat.lt_or_ge p (pixelCount s) with hp | hp
  · have hlater : readGrid (effectOf .encode (withMessage message len s)) p =
        encodedPixel (dataValues (withMessage message len s)) (nOf s) p (readGrid s p) :=
      readGrid_effectOf_encode_inside hp
    rw [hlater, ← encodedPixel_encodedPixel h, ← readGrid_effectOf_encode_inside hp]
    exact readGrid_effectOf_encode_inside hp
  · have hlater : readGrid (effectOf .encode (withMessage message len s)) p = readGrid s p :=
      readGrid_effectOf_encode_outside hp
    rw [hlater, ← readGrid_effectOf_encode_outside hp]
    exact readGrid_effectOf_encode_outside hp

/-- An ENCODE that raised no error passed both checks and left `encoded`. -/
theorem encoded_of_exec_encode {s t : State} (hready : ready s) (hexec : exec .encode s = .next t)
    (herr : t.err = false) :
    s.nbits.toNat ∈ [1, 2, 4, 8] ∧ rangeFails .encode s = false ∧ t = encoded s := by
  by_cases hn : s.nbits.toNat ∈ [1, 2, 4, 8]
  · cases hr : rangeFails .encode s with
    | false =>
      rw [exec_encode_of_fits hready hn hr] at hexec
      cases hexec
      exact ⟨hn, rfl, rfl⟩
    | true =>
      rw [exec_of_rangeFails hready (nCheck_passes .encode hn) hr] at hexec
      cases hexec
      cases herr
  · rw [exec_of_invalidN hready rfl hn] at hexec
    cases hexec
    cases herr

/-- Settles O47: idempotence is the second message being the first one again; a second message that does not fit raises
the same error in both states. -/
theorem encodeReplacesEarlierMessage : Obligations.EncodeReplacesEarlierMessage := by
  unfold Obligations.EncodeReplacesEarlierMessage
  intro s t message len hready hexec herr
  obtain ⟨hn, hr, rfl⟩ := encoded_of_exec_encode hready hexec herr
  have hsame := readGrid_encode_encoded (s := s) ((validN_iff_mem _).2 hn)
  refine ⟨⟨_, exec_encode_of_fits (s := encoded s) hready hn hr, rfl, hsame s.ibuf s.srcLen⟩, ?_⟩
  cases hr' : rangeFails .encode (withMessage message len s) with
  | false =>
    exact ⟨_, _, exec_encode_of_fits (s := withMessage message len (encoded s)) hready hn hr',
      exec_encode_of_fits (s := withMessage message len s) hready hn hr', rfl, fun _ => hsame message len⟩
  | true =>
    have hcheck := nCheck_passes .encode hn
    exact ⟨_, _, exec_of_rangeFails (s := withMessage message len (encoded s)) hready hcheck hr',
      exec_of_rangeFails (s := withMessage message len s) hready hcheck hr', rfl, fun h => by cases h⟩

end Sys2Proof.Machine

/-! ## DECODE (R180, R181) -/

namespace Sys2Proof.Machine

/-- The checks of R211 in the form the statements give them. -/
theorem rangeFails_decode_eq_false {s : State} (hgrid : s.height.toNat * s.width.toNat ≤ s.params.gridDepth.val)
    (hout : 3 * (s.height.toNat * s.width.toNat) * s.nbits.toNat / 8 ≤ s.params.obufDepth.val) :
    rangeFails .decode s = false := by
  simp [rangeFails, hgrid, hout]

theorem length_resultOf_decode (s : State) : (resultOf .decode s).length = decodedLength s := length_resultOf .decode s

/-- Past its checks DECODE delivers its result, and puts the cursor at the end of the traversal (R180). -/
theorem exec_decode_of_fits {s : State} (hready : ready s) (hn : s.nbits.toNat ∈ [1, 2, 4, 8])
    (hr : rangeFails .decode s = false) :
    ∃ d, exec .decode s = .next (setCursor (channelCount s) d) ∧ Delivered (resultOf .decode s) s d := by
  have hout : (resultOf .decode s).length ≤ s.params.obufDepth.val := by
    rw [length_resultOf]; exact obufWrites_le_depth hr
  refine ⟨complete (produce (resultOf .decode s) s), ?_, delivered_complete_produce hready.1 hout⟩
  exact exec_of_fits hready (nCheck_passes .decode hn) hr

namespace Delivered

variable {out : List Byte} {s d : State} (h : Delivered out s d)
include h

theorem done_eq_true : d.done = true := congrArg State.done h.frame

theorem err_eq : d.err = s.err := (congrArg State.err h.frame :)

end Delivered

/-- Settles O22: the N check comes first, then the range check; past both the result is delivered. -/
theorem decodeReassemblesBytes : Obligations.DecodeReassemblesBytes := by
  unfold Obligations.DecodeReassemblesBytes
  intro s hready
  refine ⟨exec_of_invalidN hready rfl, fun hn => ⟨fun hfail => ?_, fun hgrid hout => ?_⟩⟩
  · exact exec_of_rangeFails hready (nCheck_passes .decode hn) (by simpa [rangeFails] using hfail)
  · obtain ⟨d, hexec, hd⟩ := exec_decode_of_fits hready hn (rangeFails_decode_eq_false hgrid hout)
    have hlen := length_resultOf_decode s
    have hbytes := hd.map_readObuf
    rw [hlen] at hbytes
    exact ⟨_, hexec, congrArg (setCursor (channelCount s)) hd.frame, hd.dstLen.trans hlen,
      toNat_ofNat_of_le_channelCount (le_refl _), hbytes, fun a ha => hd.readObuf_of_le (hlen.trans_le ha)⟩

/-! ### The bytes in closed form -/

/-- The fields of a whole decoded byte lie in the traversal. -/
theorem field_lt_channelCount {s : State} (h : validN (nOf s) = true) {k f : Nat} (hk : k < decodedLength s)
    (hf : f < 8 / nOf s) : 8 / nOf s * k + f < channelCount s := by
  have hbits : 8 * k + 8 ≤ channelCount s * nOf s := by unfold decodedLength at hk; omega
  have hfits := field_fits h hf
  have hstart := field_index h k f 0
  have hpos := (validN_pos h).1
  refine Nat.lt_of_mul_lt_mul_left (a := nOf s) ?_
  rw [Nat.mul_comm (nOf s) (channelCount s)]
  omega

theorem getElem?_resultOf_decode {s : State} {k : Nat} (hk : k < decodedLength s) :
    (resultOf .decode s)[k]? = some (packBits 8 fun j =>
      (ungroup (gridValues s.grid (nOf s) (channelCount s)) (nOf s)).getD (8 * k + j) false) := by
  refine getElem?_fromBits ?_
  rwa [length_ungroup, length_gridValues, Nat.mul_comm]

/-- An extracted data value is the low segment of its channel, which ungrouping masks once more. -/
theorem toNat_getD_gridValues_and_loMask {m : Memory Pixel} {n count i : Nat} (h : validN n = true) (hi : i < count) :
    ((gridValues m n count).getD i 0 &&& loMask n).toNat =
      (chan (gridPixel m (pixelOf i)) (channelOf i)).toNat % 2 ^ n := by
  rw [List.getD_eq_getElem?_getD, getElem?_gridValues m hi, Option.getD_some, extract, BitVec.and_assoc,
    BitVec.and_self]
  exact toNat_extract h _

/-- Settles O23: a decoded byte is the sum of its fields, and its fields are the low segments of q channels. -/
theorem decodeClosedForm : Obligations.DecodeClosedForm := by
  unfold Obligations.DecodeClosedForm
  intro s hready hn hgrid hout
  have h : validN (nOf s) = true := (validN_iff_mem _).2 hn
  obtain ⟨d, hexec, hd⟩ := exec_decode_of_fits hready hn (rangeFails_decode_eq_false hgrid hout)
  refine ⟨_, hexec, hd.done_eq_true, hd.err_eq.trans hready.2, fun k hk => ?_,
    fun k hk => hd.readObuf_of_le ((length_resultOf_decode s).trans_le hk)⟩
  have hbyte := congrArg BitVec.toNat (hd.readObuf_of_getElem? (getElem?_resultOf_decode hk))
  rw [toNat_packBits_ungroup _ h] at hbyte
  refine hbyte.trans (Finset.sum_congr rfl fun f hf => ?_)
  rw [toNat_getD_gridValues_and_loMask h (field_lt_channelCount h hk (Finset.mem_range.1 hf))]
  rfl

end Sys2Proof.Machine

/-! ## ENCODE, then DECODE (R184, R185, R187)

DECODE finds in every channel the data value that ENCODE put there. Up to the capacity the bits of these data values are
the bits of the message, then zeros: R185 is the case that the message ends first, R187 that the capacity does. -/

namespace Sys2Proof.Machine

/-- The block still holds what ENCODE left from `s`, as far as DECODE looks at it (R185). -/
structure HoldsEncoded (s u : State) : Prop where
  width : u.width = s.width
  height : u.height = s.height
  nbits : u.nbits = s.nbits
  params : u.params = s.params
  grid : ∀ p, p < pixelCount s → readGrid u p = readGrid (encoded s) p

theorem holdsEncoded_encoded (s : State) : HoldsEncoded s (encoded s) := ⟨rfl, rfl, rfl, rfl, fun _ _ => rfl⟩

/-- Channel `i` of an encoded pixel is the old channel with data value `i` in its low segment. -/
theorem chan_encodedPixel (dv : List Byte) (n i : Nat) (q : Pixel) :
    chan (encodedPixel dv n (pixelOf i) q) (channelOf i) = embed (chan q (channelOf i)) (selectValue dv i) n := by
  obtain hc | hc | hc : i % 3 = 0 ∨ i % 3 = 1 ∨ i % 3 = 2 := by omega
  · rw [channelOf_eq_red hc, chan, chan, encodedPixel, pixelOf, show 3 * (i / 3) = i by omega]
  · rw [channelOf_eq_green hc, chan, chan, encodedPixel, pixelOf, show 3 * (i / 3) + 1 = i by omega]
  · rw [channelOf_eq_blue hc, chan, chan, encodedPixel, pixelOf, show 3 * (i / 3) + 2 = i by omega]

/-- What was embedded is extracted again (R142). -/
theorem extract_embed_selectValue {s : State} (h : validN (nOf s) = true) (v : Byte) (i : Nat) :
    extract (embed v (selectValue (dataValues s) i) (nOf s)) (nOf s) = selectValue (dataValues s) i := by
  have hlt : (selectValue (dataValues s) i).toNat < 2 ^ nOf s := by
    rw [← selectValue_dataValues_and_loMask h, ← extract, toNat_extract h]
    exact Nat.mod_lt _ (Nat.two_pow_pos _)
  exact (channelRoundTrip _ v _ ((validN_iff_mem _).1 h) hlt).1

namespace HoldsEncoded

variable {s u : State} (hu : HoldsEncoded s u)
include hu

theorem nOf_eq : nOf u = nOf s := congrArg BitVec.toNat hu.nbits

theorem channelCount_eq : channelCount u = channelCount s := by
  rw [channelCount, pixelCount, hu.width, hu.height, channelCount, pixelCount]

theorem decodedLength_eq : decodedLength u = decodedLength s := by
  rw [decodedLength, hu.channelCount_eq, hu.nOf_eq, decodedLength]

theorem rangeFails_decode (hgrid : s.height.toNat * s.width.toNat ≤ s.params.gridDepth.val)
    (hout : 3 * (s.height.toNat * s.width.toNat) * s.nbits.toNat / 8 ≤ s.params.obufDepth.val) :
    rangeFails .decode u = false := by
  apply rangeFails_decode_eq_false
  · rwa [hu.width, hu.height, hu.params]
  · rwa [hu.width, hu.height, hu.nbits, hu.params]

/-- DECODE reads the data values that ENCODE wrote. -/
theorem getD_gridValues (h : validN (nOf s) = true) {i : Nat} (hi : i < channelCount s) :
    (gridValues u.grid (nOf s) (channelCount s)).getD i 0 = selectValue (dataValues s) i := by
  have hp : pixelOf i < pixelCount s := Nat.div_lt_of_lt_mul hi
  have hpixel : gridPixel u.grid (pixelOf i) =
      encodedPixel (dataValues s) (nOf s) (pixelOf i) (readGrid s (pixelOf i)) :=
    (hu.grid _ hp).trans (readGrid_effectOf_encode_inside hp)
  rw [List.getD_eq_getElem?_getD, getElem?_gridValues _ hi, Option.getD_some, hpixel, chan_encodedPixel,
    extract_embed_selectValue h]

/-- Up to the capacity the bits DECODE puts together are those of the message, and 0 once the message has ended
(R184). -/
theorem getD_ungroup_gridValues (h : validN (nOf s) = true) {b : Nat} (hb : b < nOf s * channelCount s) :
    (ungroup (gridValues u.grid (nOf s) (channelCount s)) (nOf s)).getD b false =
      (toBits (inputSeq s s.srcLen.toNat)).getD b false := by
  have hwhole : nOf s ∣ (toBits (inputSeq s s.srcLen.toNat)).length := by
    rw [length_toBits, ← validN_mul_div h, Nat.mul_assoc]
    exact Nat.dvd_mul_right _ _
  have hj : b % nOf s < nOf s := Nat.mod_lt b (validN_pos h).1
  calc (ungroup (gridValues u.grid (nOf s) (channelCount s)) (nOf s)).getD b false
      _ = ((gridValues u.grid (nOf s) (channelCount s)).getD (b / nOf s) 0).getLsbD (nOf s - 1 - b % nOf s) := by
        rw [← getD_ungroup _ h hj, Nat.div_add_mod]
      _ = ((dataValues s).getD (b / nOf s) 0).getLsbD (nOf s - 1 - b % nOf s) := by
        rw [hu.getD_gridValues h (Nat.div_lt_of_lt_mul hb), selectValue]
      _ = (ungroup (dataValues s) (nOf s)).getD b false := by rw [← getD_ungroup _ h hj, Nat.div_add_mod]
      _ = (toBits (inputSeq s s.srcLen.toNat)).getD b false := by
        rw [dataValues, messageValues, ungroup_group_of_dvd h hwhole]

end HoldsEncoded

/-- The bits of a byte, packed again; beyond the last byte there are none. -/
theorem packBits_toBits (bytes : List Byte) (k : Nat) :
    packBits 8 (fun j => (toBits bytes).getD (8 * k + j) false) = bytes.getD k 0 := by
  rw [← ungroup_eight, packBits_ungroup bytes rfl, and_loMask_eight]

/-- Each byte DECODE delivers is the byte of the message there, or 0 once the message has ended. -/
theorem HoldsEncoded.getElem?_resultOf {s u : State} (hu : HoldsEncoded s u) (h : validN (nOf s) = true)
    {k : Nat} (hk : k < decodedLength s) :
    (resultOf .decode u)[k]? = some ((inputSeq s s.srcLen.toNat).getD k 0) := by
  rw [getElem?_resultOf_decode (hu.decodedLength_eq ▸ hk), hu.nOf_eq, hu.channelCount_eq, ← packBits_toBits]
  refine congrArg some (packBits_congr fun j hj => hu.getD_ungroup_gridValues h ?_)
  rw [Nat.mul_comm (nOf s)]
  unfold decodedLength at hk
  omega

/-- DECODE over the encoded grid completes and delivers the message, cut off or filled up with zero bytes to the
capacity. -/
theorem exec_decode_of_holdsEncoded {s u : State} (hu : HoldsEncoded s u) (hready : ready u)
    (hn : s.nbits.toNat ∈ [1, 2, 4, 8]) (hgrid : s.height.toNat * s.width.toNat ≤ s.params.gridDepth.val)
    (hout : 3 * (s.height.toNat * s.width.toNat) * s.nbits.toNat / 8 ≤ s.params.obufDepth.val) :
    ∃ w, exec .decode u = .next w ∧ w.done = true ∧ w.err = false ∧ w.dstLen.toNat = decodedLength s ∧
      ∀ k, k < decodedLength s → readObuf w k = (inputSeq s s.srcLen.toNat).getD k 0 := by
  obtain ⟨d, hexec, hd⟩ := exec_decode_of_fits hready (hu.nbits ▸ hn) (hu.rangeFails_decode hgrid hout)
  have hlen : (resultOf .decode u).length = decodedLength s := (length_resultOf_decode u).trans hu.decodedLength_eq
  exact ⟨_, hexec, hd.done_eq_true, hd.err_eq.trans hready.2, hd.dstLen.trans hlen,
    fun k hk => hd.readObuf_of_getElem? (hu.getElem?_resultOf ((validN_iff_mem _).2 hn) hk)⟩

theorem getD_inputSeq {s : State} {n k : Nat} (hk : k < n) : (inputSeq s n).getD k 0 = readIbuf s k := by
  rw [List.getD_eq_getElem?_getD, getElem?_inputSeq s hk, Option.getD_some]

/-- Settles O48: a message that fits ends before the delivered bytes do. -/
theorem decodeRecoversMessage : Obligations.DecodeRecoversMessage := by
  unfold Obligations.DecodeRecoversMessage
  intro s hready hn hin hgrid hout hfits
  refine ⟨encoded s, exec_encode_of_fits hready hn (rangeFails_encode_eq_false hin hgrid), rfl, hready.2,
    fun u huready hwidth hheight hnbits hparams hpixels => ?_⟩
  have hu : HoldsEncoded s u := ⟨hwidth, hheight, hnbits, hparams, hpixels⟩
  obtain ⟨w, hexec, hdone, herr, -, hbytes⟩ := exec_decode_of_holdsEncoded hu huready hn hgrid hout
  refine ⟨w, hexec, hdone, herr, fun k hk => ?_, fun k hend hk => ?_⟩
  · have hcap : k < 3 * (s.height.toNat * s.width.toNat) * s.nbits.toNat / 8 := by omega
    rw [hbytes k hcap, getD_inputSeq hk]
  · rw [hbytes k hk, List.getD_eq_default _ _ (by rwa [length_inputSeq])]

/-- Settles O49: the delivered bytes end before the message does. -/
theorem decodeTruncatesAtCapacity : Obligations.DecodeTruncatesAtCapacity := by
  unfold Obligations.DecodeTruncatesAtCapacity
  intro s hready hn hin hgrid hout hover
  obtain ⟨w, hexec, hdone, herr, hlen, hbytes⟩ :=
    exec_decode_of_holdsEncoded (holdsEncoded_encoded s) hready hn hgrid hout
  refine ⟨encoded s, w, exec_encode_of_fits hready hn (rangeFails_encode_eq_false hin hgrid), hexec, rfl, hready.2,
    hdone, herr, hlen, fun k hk => ?_⟩
  rw [hbytes k hk, getD_inputSeq (by omega)]

end Sys2Proof.Machine

/-! ## NOP and CLRERR (R195, R196) -/

namespace Sys2Proof.Machine

theorem complete_of_idle {s : State} (hb : s.busy = false) : complete s = { s with done := true } := by
  rw [complete, ← hb]

/-- While an error is recorded the gate passes CLRERR alone (R91, R217). -/
theorem exec_of_err {i : Instr} {s : State} (he : s.err = true) (hi : i ≠ .clrerr) : exec i s = .next s := by
  have hp : ¬passes (clears i) s := fun hp => Bool.false_ne_true ((err_of_passes hp hi).symm.trans he)
  rw [exec_eq_gate, gate_of_not_passes hp]

theorem exec_nop {s : State} (h : ready s) : exec .nop s = .next { s with done := true } := by
  rw [exec_of_fits h rfl rfl, effectOf, complete_of_idle h.1]

/-- An idle block accepts CLRERR whatever ERR is, and its rule makes no check (R196, R218). -/
theorem exec_clrerr {s : State} (hb : s.busy = false) : exec .clrerr s = .next (complete (clearError s)) := by
  have hp : passes (clears .clrerr) s := ⟨hb, fun _ => rfl⟩
  have hrule : ruleOf .clrerr (accept s) = .ok (clearError (accept s)) := rfl
  rw [exec_eq_gate, gate_of_ready_ok hp hrule]
  exact congrArg Host.Outcome.next (complete_effectOf_accept .clrerr s)

/-- Settles O10: NOP has no check to fail and no effect but its completion; while ERR = 1 the gate drops it. -/
theorem nopOnlySetsDone : Obligations.NopOnlySetsDone := by
  unfold Obligations.NopOnlySetsDone
  exact ⟨fun _ hready => exec_nop hready, fun _ _ he => exec_of_err he Instr.noConfusion⟩

/-- Settles O11: the gate lets CLRERR through with ERR = 1 or 0, and no other command while ERR = 1. -/
theorem clrerrClearsError : Obligations.ClrerrClearsError := by
  unfold Obligations.ClrerrClearsError
  refine ⟨fun s hb => ?_, fun _ _ he hi => exec_of_err he hi⟩
  rw [exec_clrerr hb, complete_of_idle ((clearError_busy s).trans hb), clearError]

end Sys2Proof.Machine

/-! ## NBITS and the commands that do not use N (R210) -/

namespace Sys2Proof.Machine

/-- `s` with another value in NBITS. -/
def withNbits (b : Byte) (s : State) : State := { s with nbits := b }

theorem rangeFails_withNbits {i : Instr} (hi : usesN i = false) (b : Byte) (s : State) :
    rangeFails i (withNbits b s) = rangeFails i s := by
  cases i with
  | group | ungroup | embed | extract | encode | decode => cases hi
  | _ => rfl

theorem effectOf_withNbits {i : Instr} (hi : usesN i = false) (b : Byte) (s : State) :
    effectOf i (withNbits b s) = withNbits b (effectOf i s) := by
  cases i with
  | group | ungroup | embed | extract | encode | decode => cases hi
  | _ => rfl

theorem ruleOf_withNbits {i : Instr} (hi : usesN i = false) (b : Byte) (s : State) :
    ruleOf i (withNbits b s) = (ruleOf i s).map (withNbits b) := by
  rw [ruleOf_eq, ruleOf_eq, hi, rangeFails_withNbits hi, effectOf_withNbits hi]
  cases rangeFails i s <;> rfl

/-- The gate looks at BUSY and ERR, and the rule of a command without N commutes with a change of NBITS. -/
theorem exec_withNbits {i : Instr} (hi : usesN i = false) (b : Byte) (s : State) :
    ∃ t, exec i s = .next t ∧ exec i (withNbits b s) = .next (withNbits b t) := by
  rw [exec_eq_gate, exec_eq_gate]
  by_cases hp : passes (clears i) s
  · have hp' : passes (clears i) (withNbits b s) := hp
    have hrule : ruleOf i (accept (withNbits b s)) = (ruleOf i (accept s)).map (withNbits b) :=
      ruleOf_withNbits hi b (accept s)
    cases hr : ruleOf i (accept s) with
    | ok u => rw [hr] at hrule; exact ⟨_, gate_of_ready_ok hp hr, gate_of_ready_ok hp' hrule⟩
    | error e => rw [hr] at hrule; exact ⟨_, gate_of_ready_error hp hr, gate_of_ready_error hp' hrule⟩
  · exact ⟨s, gate_of_not_passes hp _, gate_of_not_passes (s := withNbits b s) hp _⟩

/-- Settles O24: the six commands that make the N check fail it, the other six commute with a change of NBITS, and a
write to NBITS only stores. -/
theorem invalidNRaisesConfigurationError : Obligations.InvalidNRaisesConfigurationError := by
  unfold Obligations.InvalidNRaisesConfigurationError
  have uses : ∀ i ∈ [Instr.group, .ungroup, .embed, .extract, .encode, .decode], usesN i = true := by decide
  have ignores : ∀ i ∈ [Instr.tobits, .frombits, .wreset, .wnext, .nop, .clrerr], usesN i = false := by decide
  exact ⟨fun i hi s hready hn => exec_of_invalidN hready (uses i hi) hn,
    fun i hi s b => exec_withNbits (ignores i hi) b s,
    fun s v hb => takeMove_regWrite_idle hb (r := .nbits) rfl (by decide) v⟩

end Sys2Proof.Machine

/-! ## The range table and the order of the checks (R211, R214) -/

namespace Sys2Proof.Machine

/-- Settles O25: a row of the table is `rangeFails` at its command, reached because the N check passes. -/
theorem rangeErrorTable : Obligations.RangeErrorTable := by
  unfold Obligations.RangeErrorTable
  intro s hready n len pixels i fails
  have holds {p q : Prop} [Decidable p] [Decidable q] (h : p ∨ q) : (decide p || decide q) = true := by simpa using h
  refine ⟨fun h => exec_of_rangeFails hready rfl (holds h), fun h => exec_of_rangeFails hready rfl (holds h),
    fun hn => ?_⟩
  have past (j : Instr) (hr : rangeFails j s = true) : exec j s = fails :=
    exec_of_rangeFails hready (nCheck_passes j hn) hr
  exact ⟨fun h => past .group (holds h), fun h => past .ungroup (holds h),
    fun h => ⟨past .embed (holds h), past .extract (holds h)⟩, fun h => past .encode (holds h),
    fun h => past .decode (holds h)⟩

theorem nCheck_eq_false_iff (i : Instr) (s : State) :
    (usesN i && !validN (nOf s)) = false ↔ ¬(usesN i = true ∧ s.nbits.toNat ∉ [1, 2, 4, 8]) := by
  rw [← validN_iff_mem, ← nOf]
  cases usesN i <;> cases validN (nOf s) <;> decide

/-- What a ready block does with a command, by the first check that fails (R214). -/
theorem exec_eq_of_failingCheck (i : Instr) {s : State} (hready : ready s) :
    exec i s = .next (if failingCheck i s = 0 then complete (effectOf i s)
      else { s with done := false, err := true, errcode := failingCheck i s }) := by
  unfold failingCheck
  split
  · next hinvalid => exact exec_of_invalidN hready hinvalid.1 hinvalid.2
  · next hvalid =>
    have hn := (nCheck_eq_false_iff i s).2 hvalid
    split
    · next hr => exact exec_of_rangeFails hready hn hr
    · next hr => exact exec_of_fits hready hn (Bool.eq_false_iff.2 hr)

end Sys2Proof.Machine

/-! ## A command that fails, and the return from its error (R212, R218) -/

namespace Sys2Proof.Machine

/-! ### No effect records an error -/

theorem effectOf_err (i : Instr) {s : State} (he : s.err = false) : (effectOf i s).err = false := by
  cases i with
  | clrerr => rfl
  | _ => exact he

theorem effectOf_errcode (i : Instr) {s : State} (hcode : s.errcode = 0) : (effectOf i s).errcode = 0 := by
  cases i with
  | clrerr => rfl
  | _ => exact hcode

/-! ### What a failing command leaves -/

/-- A ready block that has ERR = 1 after a write to CMD has taken the error entry of R213, and nothing else. -/
theorem takeMove_cmd_failed {s t : State} {v : PortWord} (hready : ready s) (h : takeMove (.cmd v) s = .next t)
    (herr : t.err = true) : ∃ e, t = { s with done := false, err := true, errcode := errorCode e } := by
  obtain ⟨hb, he⟩ := hready
  rw [takeMove_cmd_idle hb] at h
  rcases issue_next_cases h with rfl | ⟨i, u, -, hu, rfl⟩ | ⟨c, e, -, rfl⟩
  · exact absurd (he.symm.trans herr) Bool.false_ne_true
  · obtain ⟨-, rfl⟩ := ruleOf_ok hu
    exact absurd ((effectOf_err i (s := accept s) he).symm.trans herr) Bool.false_ne_true
  · exact ⟨e, raiseError_accept_idle hb e⟩

/-- Settles O27: the error entry is all that a failing command does, and its codes are 1, 2 and 3. -/
theorem errorsArePrecise : Obligations.ErrorsArePrecise := by
  unfold Obligations.ErrorsArePrecise
  intro s t v hready h herr
  obtain ⟨e, rfl⟩ := takeMove_cmd_failed hready h herr
  exact ⟨rfl, errorCode_ne_zero e⟩

/-- Settles O30: CLRERR takes back the ERR and ERRCODE of the error entry, which changed nothing else but DONE. -/
theorem clrerrRecoversFailedCommand : Obligations.ClrerrRecoversFailedCommand := by
  unfold Obligations.ClrerrRecoversFailedCommand
  intro s t v hready hcode h herr
  obtain ⟨e, ht⟩ := takeMove_cmd_failed hready h herr
  obtain ⟨hb, he⟩ := hready
  have hidle : t.busy = false := by rw [ht]; exact hb
  rw [clrerrClearsError.1 t hidle, ht, ← he, ← hcode]

end Sys2Proof.Machine

/-! ## A write to CMD, case by case (R216, R217) -/

namespace Sys2Proof.Machine

theorem takeMove_cmd_encode {s : State} {v : PortWord} {i : Instr} (hb : s.busy = false) (hv : opOfPort v = encode i) :
    takeMove (.cmd v) s = exec i s := by
  rw [takeMove_cmd_idle hb, issue, hv, decodeOp_encode]

/-- While ERR = 1 every opcode but CLRERR's is ignored, the illegal ones included. -/
theorem takeMove_cmd_of_err {s : State} {v : PortWord} (hb : s.busy = false) (he : s.err = true)
    (hv : opOfPort v ≠ 0x0B) : takeMove (.cmd v) s = .next s := by
  rw [takeMove_cmd_idle hb]
  rcases issue_cases v s with ⟨i, hdecode, hissue⟩ | ⟨op, -, hissue⟩
  · have hi : i ≠ .clrerr := by rintro rfl; exact hv (eq_encode_of_decodeOp hdecode)
    rw [hissue, exec_of_err he hi]
  · rw [hissue, illegalCommand, gate_of_err he]

theorem openCommand_of_err {s : State} {v : PortWord} (he : s.err = true) (hv : opOfPort v ≠ 0x0B) :
    openCommand v s = s := by
  rcases openCommand_cases v s with h | ⟨-, hop, -⟩
  · exact h
  · exact absurd (hop he) hv

/-- Settles O28: with ERR = 0 the first failing check decides, with ERR = 1 the opcode does. -/
theorem flagsAfterCommandWrite : Obligations.FlagsAfterCommandWrite := by
  unfold Obligations.FlagsAfterCommandWrite
  intro s v hb hflags op
  refine ⟨fun he i hop => ?_, fun he hop => illegalOpcodeRaisesIllegalCommand s v ⟨hb, he⟩ hop, fun _ hop => ?_,
    fun he hop => takeMove_cmd_of_err hb he hop⟩
  · have hexec := exec_eq_of_failingCheck i (s := s) ⟨hb, he⟩
    refine ⟨_, (takeMove_cmd_encode hb hop).trans hexec, hexec, fun hpass => ?_, fun hfail => if_neg hfail⟩
    have hcode : s.errcode = 0 := by simpa [he] using hflags.2
    rw [if_pos hpass]
    exact ⟨rfl, effectOf_err i he, effectOf_errcode i hcode⟩
  · exact (takeMove_cmd_encode (i := .clrerr) hb hop).trans (clrerrClearsError.1 s hb)

/-! ### The host's other moves do not look at ERR -/

/-- `s` with another value in ERR. -/
def withErr (e : Bool) (s : State) : State := { s with err := e }

theorem eq_zero_of_regOfNumber_cmd {n : Nat} (h : regOfNumber n = some .cmd) : n = 0x00 := by
  unfold regOfNumber at h
  split at h
  · rfl
  all_goals cases h

theorem writeReg_withErr (e : Bool) (s : State) (v : PortWord) (r : Reg) :
    writeReg (withErr e s) v r = withErr e (writeReg s v r) := by
  cases r <;> rfl

theorem takeMove_regWrite_withErr {s : State} {n : Nat} (hb : s.busy = false) (hn : n ≠ 0x00) (v : PortWord)
    (e : Bool) :
    ∃ t, takeMove (.regWrite n v) s = .next t ∧ takeMove (.regWrite n v) (withErr e s) = .next (withErr e t) := by
  cases hr : regOfNumber n with
  | none => exact ⟨s, takeMove_regWrite_unassigned hr v, takeMove_regWrite_unassigned hr v⟩
  | some r =>
    have hcmd : r ≠ .cmd := by rintro rfl; exact hn (eq_zero_of_regOfNumber_cmd hr)
    refine ⟨_, takeMove_regWrite_idle hb hr hcmd v, ?_⟩
    rw [← writeReg_withErr]
    exact takeMove_regWrite_idle (s := withErr e s) hb hr hcmd v

theorem memoryMove_withErr {move : State → State} {s : State} {e : Bool} (hb : s.busy = false)
    (h : move (withErr e s) = withErr e (move s)) :
    ∃ t, memoryMove move s = .next t ∧ memoryMove move (withErr e s) = .next (withErr e t) := by
  refine ⟨move s, memoryMove_idle hb move, ?_⟩
  rw [← h]
  exact memoryMove_idle (s := withErr e s) hb move

/-- Each memory move is a case split on an entry number against a depth (R76), which ERR plays no part in. -/
theorem ite_withErr {c : Prop} [Decidable c] {t u t' u' : State} {e : Bool} (ht : t' = withErr e t)
    (hu : u' = withErr e u) : (if c then t' else u') = withErr e (if c then t else u) := by
  rw [ht, hu, apply_ite (withErr e)]

/-- Settles O29: ERR = 1 closes the gate to all but CLRERR, and no other move of the host looks at ERR. -/
theorem errorStateHoldsCommandsOff : Obligations.ErrorStateHoldsCommandsOff := by
  unfold Obligations.ErrorStateHoldsCommandsOff
  refine ⟨fun s v hb he hop => ⟨takeMove_cmd_of_err hb he hop, ?_⟩,
    fun s e hb => ⟨fun n v hn => takeMove_regWrite_withErr hb hn v e, fun n => ⟨_, rfl⟩, fun a b w m hm => ?_⟩⟩
  · rw [takeMove_regWrite_cmd_idle hb, openCommand_of_err he hop]
  · simp only [List.mem_cons, List.not_mem_nil, or_false] at hm
    rcases hm with rfl | rfl | rfl | rfl | rfl <;> exact memoryMove_withErr hb (ite_withErr rfl rfl)

end Sys2Proof.Machine

/-! ## The schedule of a step (R227, R250, log entries 2 and 3) -/

namespace Sys2Proof.Machine

theorem step_of_moves_cons {s : State} {m : HostMove} {rest : List HostMove} (hm : s.moves = m :: rest) :
    step s = takeMove m { s with moves := rest } := by
  rw [step, nextMove, hm]

theorem step_of_moves_nil {s : State} (hm : s.moves = []) : step s = endCommand s := by
  rw [step, nextMove, hm]

theorem endCommand_idle {s : State} (hb : s.busy = false) : endCommand s = .next s :=
  if_neg (by simp [hb])

theorem endCommand_busy {s : State} (hb : s.busy = true) :
    endCommand s = issue (s.runningOp.setWidth 40) { s with busy := false, runningOp := 0 } :=
  if_pos hb

theorem issue_of_command {v : PortWord} {i : Instr} (h : decodeOp (opOfPort v) = .command i) (s : State) :
    issue v s = exec i s := by
  rw [issue, h]

/-- Settles O6: the step looks at the list of moves, and `wait` is the end of the running command. -/
theorem stepTakesHostMovesInOrder : Obligations.StepTakesHostMovesInOrder := by
  unfold Obligations.StepTakesHostMovesInOrder
  exact ⟨fun _ _ _ hm => step_of_moves_cons hm, fun _ hm hb => (step_of_moves_nil hm).trans (endCommand_idle hb),
    fun _ hm _ => step_of_moves_nil hm⟩

/-- Settles O4: the step takes the write to CMD, and an idle block issues what its opcode selects. -/
theorem stepRunsDecodedCommand : Obligations.StepRunsDecodedCommand := by
  unfold Obligations.StepRunsDecodedCommand
  intro s v rest hm hb
  have hstep : step s = issue v { s with moves := rest } :=
    (step_of_moves_cons hm).trans (takeMove_cmd_idle (s := { s with moves := rest }) hb v)
  exact ⟨fun _ hdecode => hstep.trans (issue_of_command hdecode _),
    fun _ hdecode => hstep.trans (issue_of_illegal hdecode _)⟩

theorem decodeTableWord_eq_some {nbits w : Nat} {i : Instr} (h : decodeTableWord nbits w = some i) :
    decodeOp (opOfPort (portOfWord nbits w)) = .command i := by
  unfold decodeTableWord at h
  split at h
  · next hdecode => cases h; exact hdecode
  · cases h

/-- Settles O5: the placed word stands first in the list of moves of an idle block. -/
theorem placedCommandRunsNext : Obligations.PlacedCommandRunsNext := by
  unfold Obligations.PlacedCommandRunsNext
  intro s nbits w i h
  exact (stepRunsDecodedCommand (s.withFetchWord nbits w) (portOfWord nbits w) s.moves rfl rfl).1 i
    (decodeTableWord_eq_some h)

end Sys2Proof.Machine

/-! ## Every command ends, and every step but one kind answers (R250, R245) -/

namespace Sys2Proof.Machine

/-- Ignored, completed or failed, a command the gate sees on an idle block leaves it idle. -/
theorem gate_ends (c : Bool) (rule : State → Except ErrorKind State) {s : State} (hb : s.busy = false) :
    ∃ t, gate c rule s = .next t ∧ t.busy = false := by
  obtain ⟨t, ht⟩ := gate_answers c rule s
  refine ⟨t, ht, ?_⟩
  rcases gate_cases ht with ⟨-, rfl⟩ | ⟨-, u, -, rfl⟩ | ⟨-, e, -, rfl⟩
  · exact hb
  · exact complete_busy u
  · exact raiseError_busy e _

theorem exec_ends (i : Instr) {s : State} (hb : s.busy = false) : ∃ t, exec i s = .next t ∧ t.busy = false := by
  rw [exec_eq_gate]
  exact gate_ends _ _ hb

/-- A write to CMD goes through one gate, which the opcode chooses and which CLRERR's opcode opens to an error state. -/
theorem issue_eq_gate (v : PortWord) :
    ∃ c rule, (opOfPort v = 0x0B → c = true) ∧ ∀ s, issue v s = gate c rule s := by
  have hclrerr (hop : opOfPort v = 0x0B) : decodeOp (opOfPort v) = .command .clrerr := hop ▸ decodeOp_encode .clrerr
  cases hdecode : decodeOp (opOfPort v) with
  | command i =>
    refine ⟨clears i, ruleOf i, fun hop => ?_, fun s => (issue_of_command hdecode s).trans (exec_eq_gate i s)⟩
    cases hdecode.symm.trans (hclrerr hop)
    rfl
  | illegal op =>
    exact ⟨false, _, fun hop => (nomatch hdecode.symm.trans (hclrerr hop)), issue_of_illegal hdecode⟩

theorem issue_ends (v : PortWord) {s : State} (hb : s.busy = false) : ∃ t, issue v s = .next t ∧ t.busy = false := by
  obtain ⟨c, rule, -, hgate⟩ := issue_eq_gate v
  rw [hgate]
  exact gate_ends c rule hb

theorem endCommand_ends (s : State) : ∃ t, endCommand s = .next t ∧ t.busy = false := by
  cases hb : s.busy with
  | true => rw [endCommand_busy hb]; exact issue_ends _ rfl
  | false => exact ⟨s, endCommand_idle hb, hb⟩

theorem takeMove_cmd_ends (v : PortWord) (s : State) : ∃ t, takeMove (.cmd v) s = .next t ∧ t.busy = false := by
  cases hb : s.busy with
  | true => rw [takeMove_cmd_busy hb]; exact endCommand_ends s
  | false => rw [takeMove_cmd_idle hb]; exact issue_ends v hb

/-- Settles O8: every command passes through the gate, which leaves an idle block idle; a busy window ends in the same
way. -/
theorem everyCommandEnds : Obligations.EveryCommandEnds := by
  unfold Obligations.EveryCommandEnds
  exact ⟨fun i _ hb => exec_ends i hb, takeMove_cmd_ends, endCommand_ends⟩

/-- The host's accesses to the memories (R84). -/
def accessesMemory (m : HostMove) : Prop :=
  (∃ a b, m = .ibufWrite a b) ∨ (∃ a, m = .ibufRead a) ∨ (∃ a, m = .obufRead a) ∨ (∃ a w, m = .gridWrite a w) ∨
    ∃ a, m = .gridRead a

theorem memoryMove_answers_or_refuses (move : State → State) (s : State) :
    (∃ t, memoryMove move s = .next t) ∨ (memoryMove move s = .refused .hostMemoryWhileBusy ∧ s.busy = true) :=
  (memoryMove_cases move s).imp (fun h => ⟨_, h.2⟩) And.symm

/-- A host move is refused only if it accesses a memory of a busy block (R245). -/
theorem takeMove_answers_or_refuses (m : HostMove) (s : State) :
    (∃ t, takeMove m s = .next t) ∨
      (takeMove m s = .refused .hostMemoryWhileBusy ∧ s.busy = true ∧ accessesMemory m) := by
  have memory (move : State → State) (hm : accessesMemory m) :
      (∃ t, memoryMove move s = .next t) ∨
        (memoryMove move s = .refused .hostMemoryWhileBusy ∧ s.busy = true ∧ accessesMemory m) :=
    (memoryMove_answers_or_refuses move s).imp_right fun ⟨hr, hb⟩ => ⟨hr, hb, hm⟩
  cases m with
  | cmd v => exact .inl ((takeMove_cmd_ends v s).imp fun _ h => h.1)
  | regWrite n v => exact .inl ⟨_, rfl⟩
  | regRead n => exact .inl ⟨_, rfl⟩
  | wait => exact .inl (endCommand_answers s)
  | ibufWrite a b => exact memory _ (.inl ⟨a, b, rfl⟩)
  | ibufRead a => exact memory _ (.inr (.inl ⟨a, rfl⟩))
  | obufRead a => exact memory _ (.inr (.inr (.inl ⟨a, rfl⟩)))
  | gridWrite a w => exact memory _ (.inr (.inr (.inr (.inl ⟨a, w, rfl⟩))))
  | gridRead a => exact memory _ (.inr (.inr (.inr (.inr ⟨a, rfl⟩))))
  | reset => exact .inl ⟨_, rfl⟩

/-- Settles O9, by the host's next move; with none left the running command ends. -/
theorem stepAnswersUnlessMemoryIsBusy : Obligations.StepAnswersUnlessMemoryIsBusy := by
  unfold Obligations.StepAnswersUnlessMemoryIsBusy
  intro s
  cases hm : s.moves with
  | nil => rw [step_of_moves_nil hm]; exact .inl (endCommand_answers s)
  | cons m rest =>
    rw [step_of_moves_cons hm]
    exact (takeMove_answers_or_refuses m { s with moves := rest }).imp_right fun ⟨hr, hb, hmem⟩ =>
      ⟨hr, hb, m, rest, rfl, hmem⟩

end Sys2Proof.Machine

/-! ## The BUSY window and the command as one transition (R91)

The running command starts its rule from the state with DONE = 0, the command taken as one from the state before the
write. The gate runs a rule on the accepted state, where DONE is 0 in both. -/

namespace Sys2Proof.Machine

theorem openCommand_of_accepted {s : State} {v : PortWord} (hb : s.busy = false)
    (herr : s.err = true → opOfPort v = 0x0B) :
    openCommand v s = { accept s with runningOp := opOfPort v } := by
  refine if_pos ?_
  cases he : s.err with
  | false => simp [accepts, hb, he]
  | true => simp [accepts, hb, herr he]

/-- An accepted write to CMD depends on the accepted state alone, where DONE is 0. -/
theorem issue_of_accept_eq {v : PortWord} {s s' : State} (hb : s.busy = false) (hb' : s'.busy = false)
    (herr : s.err = true → opOfPort v = 0x0B) (h : accept s' = accept s) : issue v s' = issue v s := by
  obtain ⟨c, rule, hc, hgate⟩ := issue_eq_gate v
  have he' : s'.err = s.err := by simpa using congrArg State.err h
  have hs : passes c s := ⟨hb, fun he => hc (herr he)⟩
  have hs' : passes c s' := ⟨hb', fun he => hc (herr (he'.symm.trans he))⟩
  rw [hgate, hgate, gate_of_passes hs, gate_of_passes hs', h]

theorem opOfPort_setWidth (op : Byte) : opOfPort (op.setWidth 40) = op :=
  BitVec.setWidth_setWidth_of_le op (by decide)

/-- The end of a busy window: the opcode kept is the opcode written, and the accepted state is the same. -/
theorem endCommand_openCommand {s : State} {v : PortWord} (hb : s.busy = false) (hop : s.runningOp = 0)
    (herr : s.err = true → opOfPort v = 0x0B) : endCommand (openCommand v s) = issue v s := by
  rw [openCommand_of_accepted hb herr]
  have hkept : opOfPort ((opOfPort v).setWidth 40) = opOfPort v := opOfPort_setWidth _
  calc endCommand { accept s with runningOp := opOfPort v }
      _ = issue ((opOfPort v).setWidth 40) { s with done := false, busy := false, runningOp := 0 } :=
        endCommand_busy (s := { accept s with runningOp := opOfPort v }) rfl
      _ = issue v { s with done := false, busy := false, runningOp := 0 } := issue_eq_of_opOfPort_eq hkept _
      _ = issue v s := issue_of_accept_eq hb rfl herr (by rw [accept, accept, ← hop])

/-- Settles O7: an ignored write leaves an idle block, which has nothing to end; an accepted one ends as the command
taken as one does. -/
theorem busyWindowEqualsAtomicCommand : Obligations.BusyWindowEqualsAtomicCommand := by
  unfold Obligations.BusyWindowEqualsAtomicCommand
  intro s v hb hop
  have hopen := takeMove_regWrite_cmd_idle hb v
  by_cases herr : s.err = true → opOfPort v = 0x0B
  · have hend := endCommand_openCommand hb hop herr
    obtain ⟨u, hu⟩ := issue_answers v s
    exact ⟨_, u, hopen, hend.trans hu, (takeMove_cmd_idle hb v).trans hu⟩
  · obtain ⟨he, hv⟩ := Classical.not_imp.1 herr
    rw [openCommand_of_err he hv] at hopen
    exact ⟨s, s, hopen, endCommand_idle hb, takeMove_cmd_of_err hb he hv⟩

end Sys2Proof.Machine

/-! ## Reset in mid-command (R236)

A command never takes an entry off the list of a memory. So the mix of the old memory and the one the command would have
left reads, entry by entry and field by field, as one of the two. -/

namespace Sys2Proof.Machine

section
variable {α : Type}

/-- `new` lists every entry that `old` lists. -/
def Memory.keepsEntries (old new : Memory α) : Prop := ∀ k, Memory.get? new k = none → Memory.get? old k = none

theorem Memory.keepsEntries_refl (m : Memory α) : Memory.keepsEntries m m := fun _ h => h

theorem Memory.keepsEntries_set {old m : Memory α} (h : Memory.keepsEntries old m) (k : Nat) (v : α) :
    Memory.keepsEntries old (Memory.set m k v) := by
  intro a ha
  rw [Memory.get?_set] at ha
  split at ha
  · cases ha
  · exact h a ha

theorem Memory.keepsEntries_setSeq {old m : Memory α} (h : Memory.keepsEntries old m) (k : Nat) (vs : List α) :
    Memory.keepsEntries old (Memory.setSeq m k vs) := by
  induction vs generalizing m k with
  | nil => exact h
  | cons v vs ih => exact ih (Memory.keepsEntries_set h k v) (k + 1)

/-- Mixing two memories entry by entry: where `took` says so `f` of the new value, elsewhere the old one. -/
def Memory.mix (took : Nat → Bool) (f : Nat → α → α) (old new : Memory α) : Memory α :=
  new.filterMap fun x => if took x.1 then some (x.1, f x.1 x.2) else (Memory.get? old x.1).map fun v => (x.1, v)

theorem Memory.get?_mix_eq_bind (took : Nat → Bool) (f : Nat → α → α) (old new : Memory α) (k : Nat) :
    Memory.get? (Memory.mix took f old new) k =
      (Memory.get? new k).bind fun v => if took k then some (f k v) else Memory.get? old k := by
  unfold Memory.mix
  induction new with
  | nil => rfl
  | cons x m ih =>
    obtain ⟨a, v⟩ := x
    by_cases ha : a = k
    · subst ha
      cases htook : took a with
      | true => simp [Memory.get?, htook]
      | false =>
        cases hold : Memory.get? old a with
        | none => simpa [Memory.get?, htook, hold] using ih
        | some w => simp [Memory.get?, htook, hold]
    · rw [Memory.get?, if_neg ha, ← ih]
      cases htook : took a with
      | true => simp [Memory.get?, htook, ha]
      | false => cases hold : Memory.get? old a <;> simp [Memory.get?, htook, hold, ha]

theorem Memory.get?_mix {old new : Memory α} (h : Memory.keepsEntries old new) (took : Nat → Bool) (f : Nat → α → α)
    (k : Nat) :
    Memory.get? (Memory.mix took f old new) k =
      if took k then (Memory.get? new k).map (f k) else Memory.get? old k := by
  rw [Memory.get?_mix_eq_bind]
  cases hnew : Memory.get? new k with
  | none => rw [h k hnew]; exact (ite_self _).symm
  | some v => rfl

end

/-! ### The mixes -/

theorem mixBytes_eq_mix (took : Nat → Bool) (old new : Memory Byte) :
    mixBytes took old new = Memory.mix took (fun _ v => v) old new := rfl

/-- An entry of the mix is the one `took` says. -/
theorem get?_mixBytes {old new : Memory Byte} (h : Memory.keepsEntries old new) (took : Nat → Bool) (k : Nat) :
    Memory.get? (mixBytes took old new) k = if took k then Memory.get? new k else Memory.get? old k := by
  rw [mixBytes_eq_mix, Memory.get?_mix h, Option.map_id']

theorem mixPixel_self (took : Nat → Bool) (q : Pixel) : mixPixel took q q = q := by
  simp only [mixPixel, ite_self]

/-- `took` says that a field of pixel `p` was written. -/
def tookField (took : Nat → Nat → Bool) (p : Nat) : Bool := took p 0 || took p 1 || took p 2 || took p 3

theorem mixPixels_eq_mix (took : Nat → Nat → Bool) (old new : Memory Pixel) :
    mixPixels took old new =
      Memory.mix (tookField took) (fun p => mixPixel (took p) (gridPixel old p)) old new := rfl

/-- Of a pixel none of whose fields was written the old one stays. -/
theorem mixPixel_of_not_tookField {took : Nat → Nat → Bool} {p : Nat} (h : tookField took p = false) (old new : Pixel) :
    mixPixel (took p) old new = old := by
  simp only [tookField, Bool.or_eq_false_iff] at h
  obtain ⟨⟨⟨hr, hg⟩, hb⟩, ha⟩ := h
  simp [mixPixel, hr, hg, hb, ha]

/-- A field of the mix is the one `took` says. -/
theorem gridPixel_mixPixels {old new : Memory Pixel} (h : Memory.keepsEntries old new) (took : Nat → Nat → Bool)
    (p : Nat) : gridPixel (mixPixels took old new) p = mixPixel (took p) (gridPixel old p) (gridPixel new p) := by
  rw [gridPixel, mixPixels_eq_mix, Memory.get?_mix h]
  cases htook : tookField took p with
  | false => rw [mixPixel_of_not_tookField htook]; rfl
  | true =>
    cases hnew : Memory.get? new p with
    | some q =>
      have hq : gridPixel new p = q := by rw [gridPixel, hnew]; rfl
      rw [hq]; rfl
    | none =>
      have hsame : gridPixel new p = gridPixel old p := by rw [gridPixel, gridPixel, hnew, h p hnew]
      rw [hsame, mixPixel_self, gridPixel, h p hnew]
      rfl

/-! ### A command takes no entry off a list -/

theorem embedAll_keepsEntries (m : Memory Pixel) (dv : List Byte) (n count : Nat) :
    Memory.keepsEntries m (embedAll m dv n count) := by
  induction count with
  | zero => exact Memory.keepsEntries_refl m
  | succ count ih => rw [embedAll_succ]; exact Memory.keepsEntries_set ih _ _

theorem gridAfter_keepsEntries (i : Instr) (s : State) : Memory.keepsEntries s.grid (gridAfter i s) := by
  cases i with
  | embed => exact Memory.keepsEntries_set (Memory.keepsEntries_refl _) _ _
  | encode => exact embedAll_keepsEntries _ _ _ _
  | _ => exact Memory.keepsEntries_refl _

theorem issue_keepsEntries {v : PortWord} {s t : State} (h : issue v s = .next t) :
    Memory.keepsEntries s.obuf t.obuf ∧ Memory.keepsEntries s.grid t.grid := by
  rcases issue_next_cases h with rfl | ⟨i, u, -, hu, rfl⟩ | ⟨c, e, -, rfl⟩
  · exact ⟨Memory.keepsEntries_refl _, Memory.keepsEntries_refl _⟩
  · obtain ⟨-, rfl⟩ := ruleOf_ok hu
    obtain ⟨-, ho, hg, -⟩ := effectOf_memories i (accept s)
    rw [complete_obuf, complete_grid, ho, hg]
    exact ⟨Memory.keepsEntries_setSeq (Memory.keepsEntries_refl _) 0 _, gridAfter_keepsEntries i (accept s)⟩
  · exact ⟨Memory.keepsEntries_refl _, Memory.keepsEntries_refl _⟩

/-! ### The abandoned command -/

section
variable {s t : State} (hb : s.busy = true) (hend : endCommand s = .next t)
include hend

theorem abandonCommand_eq :
    abandonCommand s = { s with
      obuf := mixBytes (fun k => Config.abandonWrote s.freeDraw k 0) s.obuf t.obuf
      grid := mixPixels (Config.abandonWrote s.freeDraw) s.grid t.grid
      freeDraw := s.freeDraw + 1 } := by
  rw [abandonCommand, hend]

include hb

theorem endCommand_keepsEntries : Memory.keepsEntries s.obuf t.obuf ∧ Memory.keepsEntries s.grid t.grid :=
  issue_keepsEntries (s := { s with busy := false, runningOp := 0 }) ((endCommand_busy hb).symm.trans hend)

theorem readObuf_abandonCommand (k : Nat) :
    readObuf (abandonCommand s) k =
      if Config.abandonWrote s.freeDraw k 0 then readObuf t k else readObuf s k := by
  obtain ⟨hobuf, -⟩ := endCommand_keepsEntries hb hend
  rw [abandonCommand_eq hend, readObuf, get?_mixBytes hobuf]
  split <;> rfl

theorem readGrid_abandonCommand (p : Nat) :
    readGrid (abandonCommand s) p = mixPixel (Config.abandonWrote s.freeDraw p) (readGrid s p) (readGrid t p) := by
  obtain ⟨-, hgrid⟩ := endCommand_keepsEntries hb hend
  rw [abandonCommand_eq hend]
  exact gridPixel_mixPixels hgrid _ p

end

/-- Settles O56: the reset registers on the state of the abandoned command, whose memories are mixes of the old ones
and those the command would have left. -/
theorem resetAbandonsRunningCommand : Obligations.ResetAbandonsRunningCommand := by
  unfold Obligations.ResetAbandonsRunningCommand
  intro s t hb hend
  have either {α : Type} (c : Bool) (x y : α) : (if c then y else x) = x ∨ (if c then y else x) = y :=
    (ite_eq_or_eq _ y x).symm
  refine ⟨resetRegisters (abandonCommand s), congrArg Host.Outcome.next (if_pos hb), ?_, fun k => ?_, fun p => ?_⟩
  · rw [abandonCommand_eq hend]; rfl
  · have hread : readObuf (resetRegisters (abandonCommand s)) k = _ := readObuf_abandonCommand hb hend k
    rw [hread]
    exact either _ _ _
  · have hread : readGrid (resetRegisters (abandonCommand s)) p = _ := readGrid_abandonCommand hb hend p
    rw [hread]
    exact ⟨either _ _ _, either _ _ _, either _ _ _, either _ _ _⟩

end Sys2Proof.Machine
